-- ==== Sys2Proof/Word.lean ====
section
/-! DEFINITION. The value types of the block (spec/00_scope.md R8): bytes, byte sequences, nibbles and 16-bit
peer addresses. Every operation on them stands in a file under Machine/. -/

namespace Sys2Proof

/-- R8: an unsigned 8-bit integer. -/
abbrev Byte := BitVec 8

/-- Half of a byte, `v[7:4]` or `v[3:0]` (R101, R105). -/
abbrev Nibble := BitVec 4

/-- R8: an unsigned 16-bit address of the peer, carried and never interpreted (R31). -/
abbrev Addr16 := BitVec 16

/-- R8: a finite list of bytes, index 0 first. -/
abbrev Bytes := List Byte

end Sys2Proof
end

