-- ==== Sys2Proof/Config.lean ====
section
/-! DEFINITION. The parameters of spec/00_scope.md R5, fixed when the block is made and read-only ever after
(spec/10_state.md R25). The machine takes them as an argument: they are the field `cfg` of its state, and a
statement about every state is a statement about every configuration. -/

namespace Sys2Proof

/-- R5. `none` in one of the three bounds is the spec's `INF`. -/
structure Config where
  pStart : Byte
  pEnd : Byte
  pAck : Byte
  pNak : Byte
  cmdBR : Nat
  cmdBW : Nat
  cmdFON : Nat
  cmdFOFF : Nat
  readTimeout : Nat
  maxRespHex : Option Nat
  queueCap : Option Nat
  maxWaiters : Option Nat
  deriving DecidableEq, Repr

/-- The configuration of the reset state. The markers and identifiers are R5's defaults (PRESUMED: general
knowledge, spec/93_implementation_defined.md G1, G2; log entry 10). The four OPEN parameters have the values of
the test vectors of spec/95_test_vectors.md (DESIGN CHOICE, log entry 11): no statement rests on them. -/
def Config.vectors : Config where
  pStart := 0x02
  pEnd := 0x03
  pAck := 0x06
  pNak := 0x15
  cmdBR := 0
  cmdBW := 1
  cmdFON := 7
  cmdFOFF := 8
  readTimeout := 100
  maxRespHex := none
  queueCap := none
  maxWaiters := none

end Sys2Proof
end

