-- ==== Sys2Proof/Machine/Units.lean ====
section
/-! DEFINITION. The pure units of spec/42_checksum_hex.md: the checksum with its rendering, the hex encoder and
the hex decoder; and the nibble and byte splits they and the encoder use (R105). -/

namespace Sys2Proof

/-- `v[7:4]` -/
def hiNibble (v : Byte) : Nibble := v.extractLsb' 4 4

/-- `v[3:0]` -/
def loNibble (v : Byte) : Nibble := v.extractLsb' 0 4

/-- `addr[15:8]` -/
def addrHi (a : Addr16) : Byte := a.extractLsb' 8 8

/-- `addr[7:0]` -/
def addrLo (a : Addr16) : Byte := a.extractLsb' 0 8

/-- R11: the 16 uppercase hex characters (byte values PRESUMED: the ASCII table, spec/93 G4; log entry 16). -/
def hexUpTable : Bytes :=
  [0x30, 0x31, 0x32, 0x33, 0x34, 0x35, 0x36, 0x37, 0x38, 0x39, 0x41, 0x42, 0x43, 0x44, 0x45, 0x46]

/-- R11: the hex alphabet, `HEXUP` with the lowercase letters. -/
def hexAlpha : Bytes := hexUpTable ++ [0x61, 0x62, 0x63, 0x64, 0x65, 0x66]

/-- `HEXUP[n]` (R11). -/
def hexUp (n : Nibble) : Byte := hexUpTable.getD n.toNat 0x30

/-- R100: the sum of the bytes, mod 256. -/
def ckSum (bs : Bytes) : Byte := BitVec.ofNat 8 (bs.map BitVec.toNat).sum

/-- R101: two uppercase characters, high nibble first. -/
def ckRender (v : Byte) : Bytes := [hexUp (hiNibble v), hexUp (loNibble v)]

/-- R103: each byte becomes two uppercase characters, high nibble first (R36). -/
def hexEncode (p : Bytes) : Bytes := p.flatMap fun b => [hexUp (hiNibble b), hexUp (loNibble b)]

/-- R104's `nib`: the value of a hex character, upper- or lowercase; `none` for any other byte. -/
def nib (ch : Byte) : Option Nibble :=
  if 0x30 ≤ ch.toNat ∧ ch.toNat ≤ 0x39 then some (BitVec.ofNat 4 (ch.toNat - 0x30))
  else if 0x41 ≤ ch.toNat ∧ ch.toNat ≤ 0x46 then some (BitVec.ofNat 4 (ch.toNat - 0x41 + 10))
  else if 0x61 ≤ ch.toNat ∧ ch.toNat ≤ 0x66 then some (BitVec.ofNat 4 (ch.toNat - 0x61 + 10))
  else none

/-- R104: why a hex decoding fails. -/
inductive HexErr where
  | oddLength
  | badChar (index : Nat)
  deriving DecidableEq, Repr

/-- R104's loop over the pairs, from character index `i`: the first character gives the high nibble. -/
def hexPairs : Nat → Bytes → Except HexErr Bytes
  | i, hi :: lo :: rest =>
    match nib hi, nib lo with
    | some h, some l =>
      match hexPairs (i + 2) rest with
      | .ok out => .ok ((h ++ l : Byte) :: out)
      | .error e => .error e
    | none, _ => .error (.badChar i)
    | some _, none => .error (.badChar (i + 1))
  | _, _ => .ok []

/-- R104: the odd-length check comes before the character check. -/
def hexDecode (s : Bytes) : Except HexErr Bytes :=
  if s.length % 2 = 1 then .error .oddLength else hexPairs 0 s

end Sys2Proof
end

