-- ==== Sys2Proof/Machine/Params.lean ====
section
/-! DEFINITION. What spec/00_scope.md R5 and R6 ask of the parameters, and the bounds they set. -/

namespace Sys2Proof

/-- `n` is at most the bound; `none` is `INF` and bounds nothing (R5). -/
def withinBound (n : Nat) : Option Nat → Bool
  | none => true
  | some m => decide (n ≤ m)

/-- The bound is a natural at least `k`, or `INF` (the type column of R5). -/
def boundAtLeast (k : Nat) : Option Nat → Bool
  | none => true
  | some m => decide (k ≤ m)

/-- R6, first clause: the three markers a first byte is tested against differ pairwise. -/
def Config.markersDistinct (c : Config) : Bool :=
  c.pStart != c.pAck && c.pStart != c.pNak && c.pAck != c.pNak

/-- R6, second clause: the end marker is no hex character and no ASCII decimal digit. -/
def Config.endOutsideHex (c : Config) : Bool :=
  !hexAlpha.contains c.pEnd && !(decide (0x30 ≤ c.pEnd.toNat) && decide (c.pEnd.toNat ≤ 0x39))

/-- R6, third clause: the four identifiers differ pairwise and each is in 0..9. -/
def Config.commandsDistinct (c : Config) : Bool :=
  decide ([c.cmdBR, c.cmdBW, c.cmdFON, c.cmdFOFF].Nodup) &&
    [c.cmdBR, c.cmdBW, c.cmdFON, c.cmdFOFF].all fun n => decide (n ≤ 9)

/-- R6, with the bounds' types of R5 (`P_QUEUE_CAP` at least 2, `P_MAX_WAITERS` at least 1). A configuration
that breaks one of these is refused. -/
def Config.legal (c : Config) : Bool :=
  c.markersDistinct && c.endOutsideHex && c.commandsDistinct &&
    boundAtLeast 2 c.queueCap && boundAtLeast 1 c.maxWaiters

end Sys2Proof
end

