-- ==== Sys2Proof/Syntax.lean ====
section
/-! DEFINITION. The operations of the block as terms: one constructor of `Instr` for each of the twenty rows of
spec/opcode_table.json, with the operands the spec gives it. -/

namespace Sys2Proof

/-- The optional value of `close(reason?)`: opaque to the block, carried unchanged (R18, spec/93 U4). A byte
string stands for it (DESIGN CHOICE, log entry 13). -/
abbrev Reason := Bytes

/-- The transport's error value `e` of R114, carried unchanged (R141). The spec names one value; every other is
a byte string (DESIGN CHOICE, log entry 13). -/
inductive TransportErr where
  | notConnected
  | other (value : Bytes)
  deriving DecidableEq, Repr

/-- R114: the status of a `TX_DONE`. -/
inductive TxStatus where
  | ok
  | err (e : TransportErr)
  deriving DecidableEq, Repr

/-- The four request commands of R60. -/
inductive Command where
  | byteRead
  | byteWrite
  | forceOn
  | forceOff
  deriving DecidableEq, Repr

/-- R113: `cmd` and its operands as the request port receives them. `other` is a command that is none of the
four, which R63 refuses. -/
inductive Request where
  | byteRead (addr : Addr16) (count : Byte)
  | byteWrite (addr : Addr16) (data : Bytes)
  | forceOn (addr : Addr16)
  | forceOff (addr : Addr16)
  | other (code : Byte)
  deriving DecidableEq, Repr

/-- R141: the recorded value of a `NoResponse`. -/
inductive NoRespInfo where
  | firstByte (b : Byte)
  | timeout
  | closed (reason : Option Reason)
  deriving DecidableEq, Repr

/-- R61: the class of a response, told by the result of its first read. -/
inductive RespClass where
  | data
  | ack
  | nak
  | other (info : NoRespInfo)
  deriving DecidableEq, Repr

/-- One constructor per row of spec/opcode_table.json, in the table's order. -/
inductive Instr where
  /-- R71 -/
  | byteRead (addr : Addr16) (count : Byte)
  /-- R72 -/
  | byteWrite (addr : Addr16) (data : Bytes)
  /-- R73 -/
  | forceOn (addr : Addr16)
  /-- R74 -/
  | forceOff (addr : Addr16)
  /-- R92: the first read returned `P_START` -/
  | respData
  /-- R96: the first read returned `P_ACK` -/
  | respAck
  /-- R97: the first read returned `P_NAK` -/
  | respNak
  /-- R98: the first read returned another byte, or failed -/
  | respOther (info : NoRespInfo)
  /-- R113, selector 0x0 -/
  | exch (req : Request)
  /-- R114, selector 0x1 -/
  | txDone (status : TxStatus)
  /-- R123, selector 0x2 -/
  | push (chunk : Bytes)
  /-- R127, selector 0x3 -/
  | close (reason : Option Reason)
  /-- R128, selector 0x4 -/
  | advance (t : Nat)
  /-- R124, selector 0x5 -/
  | rdReq (size timeout : Nat)
  /-- R102, selector 0x6 -/
  | cksum (bytes : Bytes)
  /-- R103, selector 0x7 -/
  | hexenc (bytes : Bytes)
  /-- R104, selector 0x8 -/
  | hexdec (chars : Bytes)
  /-- R63, selector 0x9 -/
  | reservedOp9
  /-- R63, selectors 0xA and 0xB; `r` is the pattern's free bit -/
  | reservedOpAB (r : BitVec 1)
  /-- R63, selectors 0xC to 0xF; `r` is the pattern's two free bits -/
  | reservedOpCF (r : BitVec 2)
  deriving DecidableEq, Repr

/-- The instruction of a response class: the four rows of format RESP_FIRST_BYTE. -/
def RespClass.instr : RespClass → Instr
  | .data => .respData
  | .ack => .respAck
  | .nak => .respNak
  | .other info => .respOther info

/-- The table's three formats: where an instruction's word is found. `request`: a request frame on the wire
(R51, R60). `response`: the first byte of a response (R52, R61). `port`: a port transaction (R62). -/
inductive Chan where
  | request
  | response
  | port
  deriving DecidableEq, Repr

/-- One transaction as the environment presents it: the format it is written in and its bytes. -/
structure Packet where
  chan : Chan
  bytes : Bytes
  deriving DecidableEq, Repr

/-- The format of each row of the table. -/
def Instr.chan : Instr → Chan
  | .byteRead _ _ => .request
  | .byteWrite _ _ => .request
  | .forceOn _ => .request
  | .forceOff _ => .request
  | .respData => .response
  | .respAck => .response
  | .respNak => .response
  | .respOther _ => .response
  | .exch _ => .port
  | .txDone _ => .port
  | .push _ => .port
  | .close _ => .port
  | .advance _ => .port
  | .rdReq _ _ => .port
  | .cksum _ => .port
  | .hexenc _ => .port
  | .hexdec _ => .port
  | .reservedOp9 => .port
  | .reservedOpAB _ => .port
  | .reservedOpCF _ => .port

end Sys2Proof
end

