-- ==== Sys2Proof/Machine/Operands.lean ====
section
/-! DEFINITION. Operand assembly: the payload formats of spec/30_encoding.md R54 to R58, the command byte R57,
and the request frame of R51 and R70, with the response forms of R52. -/

namespace Sys2Proof

/-- The identifier parameter of each command (R60). -/
def Config.commandId (c : Config) : Command → Nat
  | .byteRead => c.cmdBR
  | .byteWrite => c.cmdBW
  | .forceOn => c.cmdFON
  | .forceOff => c.cmdFOFF

/-- R57: the identifier as one raw ASCII digit. -/
def cmdByte (id : Nat) : Byte := BitVec.ofNat 8 (0x30 + id)

/-- R54 (and R33): the address big-endian, then the count. -/
def byteReadPayload (addr : Addr16) (count : Byte) : Bytes := [addrHi addr, addrLo addr, count]

/-- R55 (and R33, R35): the address big-endian, the length, the data in the order given. -/
def byteWritePayload (addr : Addr16) (data : Bytes) : Bytes :=
  [addrHi addr, addrLo addr, BitVec.ofNat 8 data.length] ++ data

/-- R56 (and R34): the address little-endian. -/
def bitForcePayload (addr : Addr16) : Bytes := [addrLo addr, addrHi addr]

/-- R70: `[START][digit][hex payload][END][checksum]`; the checksum covers the digit, the hex characters and the
end marker, not the start marker (R53). -/
def encFrame (c : Config) (id : Nat) (p : Bytes) : Bytes :=
  [c.pStart] ++ ([cmdByte id] ++ hexEncode p) ++ [c.pEnd] ++
    ckRender (ckSum (([cmdByte id] ++ hexEncode p) ++ [c.pEnd]))

/-- R71 to R74: the frame of a request. A command outside the four has none (R63). -/
def Request.frame (c : Config) : Request → Bytes
  | .byteRead addr count => encFrame c (c.commandId .byteRead) (byteReadPayload addr count)
  | .byteWrite addr data => encFrame c (c.commandId .byteWrite) (byteWritePayload addr data)
  | .forceOn addr => encFrame c (c.commandId .forceOn) (bitForcePayload addr)
  | .forceOff addr => encFrame c (c.commandId .forceOff) (bitForcePayload addr)
  | .other _ => []

/-- R52, R53: the DATA response whose accumulated characters are `h`, with its right checksum. -/
def dataResponse (c : Config) (h : Bytes) : Bytes :=
  [c.pStart] ++ h ++ [c.pEnd] ++ ckRender (ckSum (h ++ [c.pEnd]))

end Sys2Proof
end

