-- ==== Sys2Proof/WellFormed.lean ====
section
/-! DEFINITION. Which terms of `Instr` an encoding admits. A term that fails a check here has no word of its own:
its operands do not fit the fields of its format, or its word is another instruction's. -/

namespace Sys2Proof

/-- R55: the length byte of a byte-write carries 0..255. -/
def dataFits (data : Bytes) : Bool := decide (data.length ≤ 255)

/-- R61: the byte of a `RESP_OTHER` is none of the three markers tested before it. -/
def otherByte (c : Config) (b : Byte) : Bool := b != c.pStart && b != c.pAck && b != c.pNak

/-- The command codes 0 to 3 of the packet form name the four commands (log entry 6), so `other` has another. -/
def otherCode (code : Byte) : Bool := decide (4 ≤ code.toNat)

def NoRespInfo.wf (c : Config) : NoRespInfo → Bool
  | .firstByte b => otherByte c b
  | .timeout => true
  | .closed _ => true

def Request.wf : Request → Bool
  | .byteRead _ _ => true
  | .byteWrite _ _ => true
  | .forceOn _ => true
  | .forceOff _ => true
  | .other code => otherCode code

/-- The instruction is one its encoding admits. A byte-write at the `EXCH` port may carry more than 255 bytes:
the port sees it and refuses it (R63), so it is well formed here and refused by its meaning. -/
def Instr.wf (c : Config) : Instr → Bool
  | .byteRead _ _ => true
  | .byteWrite _ data => dataFits data
  | .forceOn _ => true
  | .forceOff _ => true
  | .respData => true
  | .respAck => true
  | .respNak => true
  | .respOther info => info.wf c
  | .exch req => req.wf
  | .txDone _ => true
  | .push _ => true
  | .close _ => true
  | .advance _ => true
  | .rdReq _ _ => true
  | .cksum _ => true
  | .hexenc _ => true
  | .hexdec _ => true
  | .reservedOp9 => true
  | .reservedOpAB _ => true
  | .reservedOpCF _ => true

end Sys2Proof
end

