-- ==== Sys2Proof/Decode.lean ====
section
/-! DEFINITION. The decoder of the table's three formats, total on any bytes and rejecting by name, and after it
the encoder. Request frames are the wire format of spec/30_encoding.md R51; responses are classified by R61; a
port transaction begins with its 4-bit selector (R62). The spec gives a port transaction's operands no bits: their
packet form here is the model's (DESIGN CHOICE, log entry 6). -/

namespace Sys2Proof

/-- Why bytes are no instruction. -/
inductive DecodeError where
  /-- the bytes end before the instruction does -/
  | truncated
  /-- bits 7..4 of a port transaction's first byte are not 0 -/
  | badSelectorByte
  /-- a natural operand is not written in its shortest form -/
  | nonCanonical
  /-- a status or option byte has no meaning -/
  | badTag
  /-- a request frame does not begin with `P_START` -/
  | badStart
  /-- a command byte of none of the four commands: a reserved wire encoding (R63) -/
  | unknownCommand
  /-- a request frame has no end marker -/
  | noEnd
  /-- a request frame's checksum characters are not those of R51 -/
  | badChecksum
  /-- a request frame's payload characters are not the uppercase hex of any bytes (R103) -/
  | badHex
  /-- a request frame's payload is not of its command's format (R54 to R56) -/
  | badPayload
  /-- bytes follow the instruction in its packet -/
  | trailingBytes
  /-- a response is presented as a transaction: its bytes reach the block by `PUSH` alone (R50) -/
  | notPresented
  deriving DecidableEq, Repr

/-! ### Operands of a port transaction (log entry 6) -/

/-- A natural: seven bits a byte, least significant first, bit 7 set on every byte but the last. -/
def putNatFuel : Nat → Nat → Bytes
  | 0, n => [BitVec.ofNat 8 n]
  | k + 1, n => if n < 128 then [BitVec.ofNat 8 n] else BitVec.ofNat 8 (n % 128 + 128) :: putNatFuel k (n / 128)

def putNat (n : Nat) : Bytes := putNatFuel n n

/-- Reads a natural; a last byte of 0 after another byte is refused, so every natural has one form. -/
def getNat : Bytes → Except DecodeError (Nat × Bytes)
  | [] => .error .truncated
  | b :: bs =>
    if b.toNat < 128 then .ok (b.toNat, bs)
    else
      match getNat bs with
      | .error e => .error e
      | .ok (n, rest) => if n = 0 then .error .nonCanonical else .ok (b.toNat - 128 + 128 * n, rest)

/-- A byte sequence: its length, then its bytes. -/
def putBytes (bs : Bytes) : Bytes := putNat bs.length ++ bs

def getBytes (bs : Bytes) : Except DecodeError (Bytes × Bytes) :=
  match getNat bs with
  | .error e => .error e
  | .ok (n, rest) => if rest.length < n then .error .truncated else .ok (rest.take n, rest.drop n)

/-- An address operand: high byte first. -/
def putAddr (a : Addr16) : Bytes := [addrHi a, addrLo a]

def getAddr : Bytes → Except DecodeError (Addr16 × Bytes)
  | hi :: lo :: rest => .ok (hi ++ lo, rest)
  | _ => .error .truncated

/-- `EXCH`'s operand: a command code (0 byte-read, 1 byte-write, 2 force-on, 3 force-off, any other is none of
the four), then the command's operands. -/
def putRequest : Request → Bytes
  | .byteRead addr count => 0 :: (putAddr addr ++ [count])
  | .byteWrite addr data => 1 :: (putAddr addr ++ putBytes data)
  | .forceOn addr => 2 :: putAddr addr
  | .forceOff addr => 3 :: putAddr addr
  | .other code => [code]

def getRequest : Bytes → Except DecodeError (Request × Bytes)
  | [] => .error .truncated
  | code :: bs =>
    if 4 ≤ code.toNat then .ok (.other code, bs)
    else
      match getAddr bs with
      | .error e => .error e
      | .ok (addr, rest) =>
        if code = 0 then
          match rest with
          | count :: rest' => .ok (.byteRead addr count, rest')
          | [] => .error .truncated
        else if code = 1 then
          match getBytes rest with
          | .error e => .error e
          | .ok (data, rest') => .ok (.byteWrite addr data, rest')
        else if code = 2 then .ok (.forceOn addr, rest)
        else .ok (.forceOff addr, rest)

/-- `TX_DONE`'s operand: 0 `ok`, 1 `err(NotConnected)`, 2 another transport error with its value. -/
def putStatus : TxStatus → Bytes
  | .ok => [0]
  | .err .notConnected => [1]
  | .err (.other v) => 2 :: putBytes v

def getStatus : Bytes → Except DecodeError (TxStatus × Bytes)
  | [] => .error .truncated
  | tag :: bs =>
    if tag = 0 then .ok (.ok, bs)
    else if tag = 1 then .ok (.err .notConnected, bs)
    else if tag = 2 then
      match getBytes bs with
      | .error e => .error e
      | .ok (v, rest) => .ok (.err (.other v), rest)
    else .error .badTag

/-- `CLOSE`'s operand: 0 no reason, 1 a reason. -/
def putReason : Option Reason → Bytes
  | none => [0]
  | some r => 1 :: putBytes r

def getReason : Bytes → Except DecodeError (Option Reason × Bytes)
  | [] => .error .truncated
  | tag :: bs =>
    if tag = 0 then .ok (none, bs)
    else if tag = 1 then
      match getBytes bs with
      | .error e => .error e
      | .ok (r, rest) => .ok (some r, rest)
    else .error .badTag

/-! ### Port transactions (R62, R63) -/

/-- The operands of the transaction whose selector is `op`, in the order of R62's table. -/
def decodeOperands (op : Nibble) (bs : Bytes) : Except DecodeError (Instr × Bytes) :=
  match op.toNat with
  | 0x0 => (getRequest bs).map fun x => (.exch x.1, x.2)
  | 0x1 => (getStatus bs).map fun x => (.txDone x.1, x.2)
  | 0x2 => (getBytes bs).map fun x => (.push x.1, x.2)
  | 0x3 => (getReason bs).map fun x => (.close x.1, x.2)
  | 0x4 => (getNat bs).map fun x => (.advance x.1, x.2)
  | 0x5 =>
    match getNat bs with
    | .error e => .error e
    | .ok (n, rest) => (getNat rest).map fun x => (.rdReq n x.1, x.2)
  | 0x6 => (getBytes bs).map fun x => (.cksum x.1, x.2)
  | 0x7 => (getBytes bs).map fun x => (.hexenc x.1, x.2)
  | 0x8 => (getBytes bs).map fun x => (.hexdec x.1, x.2)
  | 0x9 => .ok (.reservedOp9, bs)
  | 0xA => .ok (.reservedOpAB 0, bs)
  | 0xB => .ok (.reservedOpAB 1, bs)
  | _ => .ok (.reservedOpCF (op.extractLsb' 0 2), bs)

/-- The selector stands in bits 3..0 of the first byte; bits 7..4 are 0. -/
def decodePort : Bytes → Except DecodeError (Instr × Bytes)
  | [] => .error .truncated
  | b :: bs => if hiNibble b = 0 then decodeOperands (loNibble b) bs else .error .badSelectorByte

/-! ### Responses (R61) -/

/-- R61: the markers are tested in this order, and any other byte is the fourth class. -/
def classifyByte (c : Config) (b : Byte) : RespClass :=
  if b = c.pStart then .data
  else if b = c.pAck then .ack
  else if b = c.pNak then .nak
  else .other (.firstByte b)

def decodeResponse (c : Config) : Bytes → Except DecodeError (Instr × Bytes)
  | [] => .error .truncated
  | b :: bs => .ok ((classifyByte c b).instr, bs)

/-! ### Request frames (R51, R60) -/

/-- The command whose digit is `d`, of the four of R60. -/
def Config.commandOf (c : Config) (d : Byte) : Option Command :=
  if d = cmdByte c.cmdBR then some .byteRead
  else if d = cmdByte c.cmdBW then some .byteWrite
  else if d = cmdByte c.cmdFON then some .forceOn
  else if d = cmdByte c.cmdFOFF then some .forceOff
  else none

/-- The bytes before the first `e` and the bytes after it. -/
def splitAtByte (e : Byte) : Bytes → Option (Bytes × Bytes)
  | [] => none
  | b :: bs => if b = e then some ([], bs) else (splitAtByte e bs).map fun x => (b :: x.1, x.2)

/-- R54 to R56 read backwards: the instruction whose payload is `p`. -/
def instrOfPayload : Command → Bytes → Option Instr
  | .byteRead, [hi, lo, count] => some (.byteRead (hi ++ lo) count)
  | .byteWrite, hi :: lo :: n :: data => if data.length = n.toNat then some (.byteWrite (hi ++ lo) data) else none
  | .forceOn, [lo, hi] => some (.forceOn (hi ++ lo))
  | .forceOff, [lo, hi] => some (.forceOff (hi ++ lo))
  | _, _ => none

/-- The body of a request frame after its start marker: digit, hex payload, end marker, checksum. Only the one
form the encoder sends is read: uppercase characters and the exact checksum. -/
def decodeRequestBody (c : Config) (cmd : Command) (d : Byte) (bs : Bytes) : Except DecodeError (Instr × Bytes) :=
  match splitAtByte c.pEnd bs with
  | none => .error .noEnd
  | some (hex, c1 :: c2 :: rest) =>
    if [c1, c2] ≠ ckRender (ckSum (([d] ++ hex) ++ [c.pEnd])) then .error .badChecksum
    else
      match hexDecode hex with
      | .error _ => .error .badHex
      | .ok p =>
        if hexEncode p ≠ hex then .error .badHex
        else
          match instrOfPayload cmd p with
          | none => .error .badPayload
          | some i => .ok (i, rest)
  | some _ => .error .truncated

def decodeRequest (c : Config) : Bytes → Except DecodeError (Instr × Bytes)
  | s :: d :: bs =>
    if s ≠ c.pStart then .error .badStart
    else
      match c.commandOf d with
      | none => .error .unknownCommand
      | some cmd => decodeRequestBody c cmd d bs
  | _ => .error .truncated

/-! ### The decoder and the encoder -/

/-- The instruction at the front of the bytes, and the bytes after it. -/
def decode (c : Config) : Chan → Bytes → Except DecodeError (Instr × Bytes)
  | .request, bs => decodeRequest c bs
  | .response, bs => decodeResponse c bs
  | .port, bs => decodePort bs

/-- A packet is one instruction and nothing else. -/
def decodePacket (c : Config) (p : Packet) : Except DecodeError Instr :=
  match decode c p.chan p.bytes with
  | .error e => .error e
  | .ok (i, []) => .ok i
  | .ok (_, _ :: _) => .error .trailingBytes

/-- The words of an instruction: R51 for the four commands, the marker for a response class, the selector byte
and the operands for a port transaction. A failed first read has no word: no byte was received. -/
def encode (c : Config) : Instr → Bytes
  | .byteRead addr count => (Request.byteRead addr count).frame c
  | .byteWrite addr data => (Request.byteWrite addr data).frame c
  | .forceOn addr => (Request.forceOn addr).frame c
  | .forceOff addr => (Request.forceOff addr).frame c
  | .respData => [c.pStart]
  | .respAck => [c.pAck]
  | .respNak => [c.pNak]
  | .respOther (.firstByte b) => [b]
  | .respOther .timeout => []
  | .respOther (.closed _) => []
  | .exch req => 0x00 :: putRequest req
  | .txDone status => 0x01 :: putStatus status
  | .push chunk => 0x02 :: putBytes chunk
  | .close reason => 0x03 :: putReason reason
  | .advance t => 0x04 :: putNat t
  | .rdReq size timeout => 0x05 :: (putNat size ++ putNat timeout)
  | .cksum bytes => 0x06 :: putBytes bytes
  | .hexenc bytes => 0x07 :: putBytes bytes
  | .hexdec chars => 0x08 :: putBytes chars
  | .reservedOp9 => [0x09]
  | .reservedOpAB r => [(0b0000101#7 ++ r : Byte)]
  | .reservedOpCF r => [(0b000011#6 ++ r : Byte)]

/-- An instruction that has a word: every one but `RESP_OTHER` after a failed first read. -/
def Instr.hasWord : Instr → Bool
  | .respOther (.firstByte _) => true
  | .respOther .timeout => false
  | .respOther (.closed _) => false
  | .byteRead _ _ | .byteWrite _ _ | .forceOn _ | .forceOff _ => true
  | .respData | .respAck | .respNak => true
  | .exch _ | .txDone _ | .push _ | .close _ | .advance _ | .rdReq _ _ => true
  | .cksum _ | .hexenc _ | .hexdec _ => true
  | .reservedOp9 | .reservedOpAB _ | .reservedOpCF _ => true

/-! ### The words of spec/opcode_table.json -/

/-- The bytes of the number `w` of `n` bytes, least significant byte first: the table's bit numbering. -/
def bytesOfWord : Nat → Nat → Bytes
  | 0, _ => []
  | n + 1, w => BitVec.ofNat 8 (w % 256) :: bytesOfWord n (w / 256)

/-- In which format a word of the table is read. The table's three formats number the same bits (0x02 is both
`RESP_DATA` and `PUSH`): a word of at most 4 bits is a selector; of the wider ones, a marker is a response, a
command digit is a request, a byte below 0x10 is a selector, and any other is a response (log entry 9). -/
def wordChan (c : Config) (nbits w : Nat) : Chan :=
  let b : Byte := BitVec.ofNat 8 w
  if nbits ≤ 4 then .port
  else if b = c.pStart ∨ b = c.pAck ∨ b = c.pNak then .response
  else if (c.commandOf b).isSome then .request
  else if hiNibble b = 0 then .port
  else .response

/-- The shortest payload of a command whose operands are all zero. -/
def zeroPayload : Command → Bytes
  | .byteRead => byteReadPayload 0 0
  | .byteWrite => byteWritePayload 0 []
  | .forceOn => bitForcePayload 0
  | .forceOff => bitForcePayload 0

/-- The bytes of a table word as the hardware has them. A command row gives the byte at offset 1 of a frame, so
the frame around it is built, with zero operands. A response row gives the first byte. A port row gives the
selector, and its operand bytes are zero. -/
def wordBytes (c : Config) (nbits w : Nat) : Bytes :=
  let b : Byte := BitVec.ofNat 8 w
  match wordChan c nbits w with
  | .request =>
    match c.commandOf b with
    | some cmd => encFrame c (c.commandId cmd) (zeroPayload cmd)
    | none => []
  | .response => [b]
  | .port => bytesOfWord ((nbits + 7) / 8) w ++ List.replicate 8 0

/-- The packet of a table word: the zero bytes that the instruction does not reach are left out. -/
def wordPacket (c : Config) (nbits w : Nat) : Packet :=
  let bs := wordBytes c nbits w
  match decode c (wordChan c nbits w) bs with
  | .ok (_, rest) => ⟨wordChan c nbits w, bs.take (bs.length - rest.length)⟩
  | .error _ => ⟨wordChan c nbits w, bs⟩

/-- The instruction the decoder reads from a word of spec/opcode_table.json, at the default markers and
identifiers the table shows. -/
def decodeTableWord (nbits w : Nat) : Option Instr :=
  match decodePacket .vectors (wordPacket .vectors nbits w) with
  | .ok i => some i
  | .error _ => none

end Sys2Proof
end

