-- ==== Sys2Proof/Machine/State.lean ====
section
/-! DEFINITION. The state of the block: the ten elements of spec/10_state.md R13 (`Arch`), the read-only
configuration (R25), and the model's own record of what stands at the ports. Plain data throughout. -/

namespace Sys2Proof.Machine

/-- R16: one pending read request. -/
structure Waiter where
  wid : Nat
  size : Nat
  deadline : Nat
  deriving DecidableEq, Repr

/-- R21: which step of an exchange comes next. -/
inductive ExSt where
  | idle
  | tx
  | rxFirst
  | rxAccum
  | rxCksum
  deriving DecidableEq, Repr

/-- R120: the result of one read request. -/
inductive RdResult where
  | ok (bytes : Bytes)
  | timeout
  | closed (reason : Option Reason)
  deriving DecidableEq, Repr

/-- R142: the sub-causes of `MalformedResponse`. -/
inductive MalformedCause where
  | m1NoEnd
  | m2Timeout
  | m3Overflow
  | m4ShortCksum
  | m5Cksum
  | m6BadHex
  deriving DecidableEq, Repr

/-- R141: the errors an exchange can end with, each with its recorded value. -/
inductive ExErr where
  | noResponse (info : NoRespInfo)
  | malformedResponse (cause : MalformedCause)
  | unsupportedCommand
  | transportError (e : TransportErr)
  deriving DecidableEq, Repr

/-- R50: what an `EXCH_RESP` carries. -/
inductive ExResult where
  | ok (payload : Bytes)
  | err (e : ExErr)
  deriving DecidableEq, Repr

/-- One transaction on an output port (R50), or the result of a pure unit (R102 to R104). -/
inductive Output where
  | txWrite (frame : Bytes)
  | exchResp (result : ExResult)
  | rdResp (wid : Nat) (result : RdResult)
  | cksum (chars : Bytes)
  | hexenc (chars : Bytes)
  | hexdec (result : Bytes ⊕ HexErr)
  deriving DecidableEq, Repr

/-- R13: the architectural state, exactly the spec's ten elements (R14). -/
structure Arch where
  /-- `SR.q` (R15) -/
  srQ : Bytes
  /-- `SR.waiters` (R16) -/
  srWaiters : List Waiter
  /-- `SR.closed` (R17) -/
  srClosed : Bool
  /-- `SR.reason` (R18) -/
  srReason : Option Reason
  /-- `SR.nextWid` (R19) -/
  srNextWid : Nat
  /-- `now` (R20) -/
  now : Nat
  /-- `EX.st` (R21) -/
  exSt : ExSt
  /-- `EX.acc` (R22) -/
  exAcc : Bytes
  /-- `EX.wid` (R23) -/
  exWid : Option Nat
  /-- `EX.frame` (R24) -/
  exFrame : Bytes
  deriving DecidableEq, Repr

/-- The machine: the architectural state, the configuration, and the model's own fields for the ports. -/
structure State extends Arch where
  /-- The configuration, which no step writes (R25). -/
  cfg : Config
  /-- R126: the results delivered and not yet dispatched, "a list local to the transaction"; empty between
  transactions (log entry 1). -/
  res : List (Nat × RdResult)
  /-- The transactions the environment presents, in the order it chose (R147; log entry 2). -/
  inp : List Packet
  /-- The transactions presented and held, oldest first (R112, R122; log entry 3). -/
  held : List Instr
  /-- The transactions emitted on the output ports, oldest first (R50; log entry 5). -/
  out : List Output
  deriving DecidableEq, Repr

/-- R140: the block has no trap and no fault. Every failure is a result on the port that made the request, so no
step ends here, and the type has no constructor. -/
inductive Fault where
  deriving DecidableEq, Repr

/-- Refusals (R10, R144): the transaction is not accepted, has no step and no result, and the run is marked
refused. Each is safe: the run stops, nothing is claimed of what would follow. -/
inductive Refusal where
  /-- raised by an arm of `exec` whose instruction has no meaning; safe -/
  | notModelled (mnemonic : String)
  /-- R63, raised by `EXCH` of a command that is none of the four; safe -/
  | unknownCommand
  /-- R63, raised by a byte-write of more than 255 data bytes; safe -/
  | dataTooLong
  /-- R63, raised by the reserved selectors; safe -/
  | reservedSelector (op : Nibble)
  /-- R117, raised by `TX_DONE` outside state TX; safe -/
  | txDoneOutsideTx
  /-- R122, raised by a `PUSH` longer than `P_QUEUE_CAP`; safe -/
  | pushTooLong
  /-- R128, raised by an `ADVANCE` to a time before `now`; safe -/
  | timeBackwards
  /-- R6, raised by every step of a configuration that breaks R6; safe -/
  | illegalConfig
  /-- R91, raised by a response class when no first read is outstanding; safe (log entry 8) -/
  | noFirstRead
  /-- raised by the fetch when the presented bytes are no transaction; safe (log entry 6) -/
  | undecodable (e : DecodeError)
  deriving DecidableEq, Repr

/-- R29, R160: a new machine of the configuration `c`. -/
def State.resetWith (c : Config) : State where
  srQ := []
  srWaiters := []
  srClosed := false
  srReason := none
  srNextWid := 0
  now := 0
  exSt := .idle
  exAcc := []
  exWid := none
  exFrame := []
  cfg := c
  res := []
  inp := []
  held := []
  out := []

/-- The machine right after reset, with the configuration of the spec's test vectors (log entries 10, 11). -/
def State.reset : State := State.resetWith .vectors

/-- R141: the numeric code of an exchange's result. -/
def ExResult.code : ExResult → Byte
  | .ok _ => 0x00
  | .err (.noResponse _) => 0x01
  | .err (.malformedResponse _) => 0x02
  | .err .unsupportedCommand => 0x03
  | .err (.transportError _) => 0x04

/-- R141: the numeric code of a read's result. -/
def RdResult.code : RdResult → Byte
  | .ok _ => 0x00
  | .timeout => 0x10
  | .closed _ => 0x11

end Sys2Proof.Machine
end

