-- ==== Sys2Proof/Machine/Flags.lean ====
section
/-! DEFINITION. Derived status: the conditions the rules test (spec/10_state.md R26, spec/44 R122), computed
from the state. The block has one stored flag, `SR.closed` (R17), and no condition codes. -/

namespace Sys2Proof.Machine

/-- R26: an exchange is in flight. -/
def State.busy (s : State) : Bool := decide (s.exSt ≠ .idle)

/-- The decoder runs in these states (R21, R23). -/
def ExSt.receiving : ExSt → Bool
  | .idle => false
  | .tx => false
  | .rxFirst => true
  | .rxAccum => true
  | .rxCksum => true

/-- R90: how many bytes the decoder's read asks for in each state: two for the checksum, else one. -/
def ExSt.readSize : ExSt → Nat
  | .rxCksum => 2
  | .idle => 1
  | .tx => 1
  | .rxFirst => 1
  | .rxAccum => 1

/-- R90, R23: the decoder is in RX_FIRST and its read has been answered: `EX.wid` names a read that is no longer
pending, so its result is what comes next. -/
def State.firstAnswered (s : State) : Bool :=
  decide (s.exSt = .rxFirst) &&
    match s.exWid with
    | some w => !(s.srWaiters.any fun x => x.wid == w)
    | none => false

/-- R122: no further waiter fits. (At least the bound, where the spec says equal to it: the two agree in every
state that keeps I7; log entry 18.) -/
def State.waitersFull (s : State) : Bool :=
  match s.cfg.maxWaiters with
  | none => false
  | some m => decide (m ≤ s.srWaiters.length)

/-- R122, R124: a read of `n` bytes would have to register a waiter and cannot. -/
def State.readHeld (n : Nat) (s : State) : Bool :=
  !s.srClosed && decide (s.srQ.length < n) && s.waitersFull

/-- R122: the chunk fits in the free space of the queue. -/
def State.chunkFits (chunk : Bytes) (s : State) : Bool :=
  withinBound (s.srQ.length + chunk.length) s.cfg.queueCap

/-- R93: the accumulator is full. -/
def State.accFull (s : State) : Bool :=
  match s.cfg.maxRespHex with
  | none => false
  | some m => decide (m ≤ s.exAcc.length)

/-- R122: between `s` and `t` a read had to register a waiter and none fitted. -/
def State.neededWaiter (s t : State) : Bool := s.waitersFull && decide (s.srWaiters.length < t.srWaiters.length)

/-- Where a transaction has to wait its turn: the things that can be held (R112, R122; log entries 3, 4). -/
inductive HoldClass where
  | request
  | push
  | read
  | completion
  | response
  deriving DecidableEq, Repr

/-- The class of each operation that a hold can meet; `none` for one that is never held. -/
def holdClass : Instr → Option HoldClass
  | .byteRead _ _ => some .request
  | .byteWrite _ _ => some .request
  | .forceOn _ => some .request
  | .forceOff _ => some .request
  | .exch _ => some .request
  | .push _ => some .push
  | .rdReq _ _ => some .read
  | .txDone _ => some .completion
  | .respData => some .response
  | .respAck => some .response
  | .respNak => some .response
  | .respOther _ => some .response
  | .close _ => none
  | .advance _ => none
  | .cksum _ => none
  | .hexenc _ => none
  | .hexdec _ => none
  | .reservedOp9 => none
  | .reservedOpAB _ => none
  | .reservedOpCF _ => none

/-- R122, R123: a push to an open reader that does not fit now and can fit later. -/
def State.pushHeld (chunk : Bytes) (s : State) : Bool :=
  !s.srClosed && !s.chunkFits chunk && withinBound chunk.length s.cfg.queueCap

/-- An earlier operation of the same class is held, so this one waits behind it: pushes keep the stream's order
(R42), requests, reads and completions the order they were made in (R44, R111). -/
def State.blocked (i : Instr) (s : State) : Bool :=
  (holdClass i).isSome && s.held.any fun j => holdClass j == holdClass i

end Sys2Proof.Machine
end

