-- ==== Sys2Proof/Machine/Ops.lean ====
section
/-! DEFINITION. The shared operations: the output ports, the stream reader's `deliver`, `read` and `satisfy`
(spec/44), the end of an exchange (spec/43 R115, the block's one failure entry: spec/60 R148), the decoder's
rules (spec/41) and `dispatch` (R126). -/

namespace Sys2Proof.Machine

/-! ### Ports -/

/-- R9: `emit`. -/
def State.emit (o : Output) (s : State) : State := { s with out := s.out ++ [o] }

/-- R112, R122: the operation is held. -/
def State.hold (i : Instr) (s : State) : State := { s with held := s.held ++ [i] }

/-! ### The end of an exchange -/

/-- R115: the single way an exchange ends. `SR` is not touched. -/
def State.complete (r : ExResult) (s : State) : State :=
  { s.emit (.exchResp r) with exSt := .idle, exAcc := [], exWid := none, exFrame := [] }

/-- R9, R148: `raise E(info)`. It saves nothing but the value in the result, and there is nothing to return
from (R149). -/
def State.raise (e : ExErr) (s : State) : State := s.complete (.err e)

/-! ### The stream reader -/

/-- R126: a result joins the list local to the transaction. -/
def State.deliver (w : Nat) (r : RdResult) (s : State) : State := { s with res := s.res ++ [(w, r)] }

/-- R124, R121: one read request of `n` bytes with timeout `t`, where it is not held. Its `wid` is the
`SR.nextWid` it finds. The closed test comes first (spec/90 C2). -/
def State.read (n t : Nat) (s : State) : State :=
  let w := s.srNextWid
  let s' := { s with srNextWid := w + 1 }
  if s.srClosed then s'.deliver w (.closed s.srReason)
  else if n ≤ s.srQ.length then { s'.deliver w (.ok (s.srQ.take n)) with srQ := s.srQ.drop n }
  else { s' with srWaiters := s.srWaiters ++ [⟨w, n, s.now + t⟩] }

/-- R90: the decoder's read, whose identifier is recorded as it is made (R23). -/
def State.rx (n : Nat) (s : State) : State := { s.read n s.cfg.readTimeout with exWid := some s.srNextWid }

/-- R125 over the list of waiters: oldest first, stopping at the first that cannot be served. -/
def satisfyFrom : List Waiter → State → State
  | [], s => { s with srWaiters := [] }
  | w :: ws, s =>
    if w.size ≤ s.srQ.length then
      satisfyFrom ws { s.deliver w.wid (.ok (s.srQ.take w.size)) with srQ := s.srQ.drop w.size }
    else { s with srWaiters := w :: ws }

/-- R125. -/
def State.satisfy (s : State) : State := satisfyFrom s.srWaiters s

/-- R127, R128: the waiters fail with `r`, oldest first; the others stay. -/
def State.failWaiters (p : Waiter → Bool) (r : RdResult) (s : State) : State :=
  { s with
    srWaiters := s.srWaiters.filter fun w => !p w
    res := s.res ++ (s.srWaiters.filter p).map fun w => (w.wid, r) }

/-! ### The decoder's rules (R92 to R98) -/

/-- R61 on the result of the first read; `none` for a result a 1-byte read does not have (log entry 17). -/
def firstClass (c : Config) : RdResult → Option RespClass
  | .ok [b] => some (classifyByte c b)
  | .ok [] => none
  | .ok (_ :: _ :: _) => none
  | .timeout => some (.other .timeout)
  | .closed reason => some (.other (.closed reason))

/-- R92. -/
def State.respData (s : State) : State := State.rx 1 { s with exAcc := [], exSt := .rxAccum }

/-- R96. -/
def State.respAck (s : State) : State := s.complete (.ok [])

/-- R97. -/
def State.respNak (s : State) : State := s.raise .unsupportedCommand

/-- R98: the byte, if there was one, has been consumed and is dropped. -/
def State.respOther (info : NoRespInfo) (s : State) : State := s.raise (.noResponse info)

/-- The decoder's rule for each class of response. -/
def State.respond : RespClass → State → State
  | .data, s => s.respData
  | .ack, s => s.respAck
  | .nak, s => s.respNak
  | .other info, s => s.respOther info

/-- R93, R94: one byte in state RX_ACCUM. The end-marker test comes before the capacity test (R146). -/
def State.accumulate (b : Byte) (s : State) : State :=
  if b = s.cfg.pEnd then State.rx 2 { s with exSt := .rxCksum }
  else if s.accFull then s.raise (.malformedResponse .m3Overflow)
  else State.rx 1 { s with exAcc := s.exAcc ++ [b] }

/-- R95: the two checksum characters in state RX_CKSUM: the checksum first, then the hex (R146). -/
def State.verify (ck : Bytes) (s : State) : State :=
  if ck ≠ ckRender (ckSum (s.exAcc ++ [s.cfg.pEnd])) then s.raise (.malformedResponse .m5Cksum)
  else
    match hexDecode s.exAcc with
    | .error _ => s.raise (.malformedResponse .m6BadHex)
    | .ok p => s.complete (.ok p)

/-- R92 to R98, R146: the decoder's rule for `EX.st` applied to the result of its read. `none` where no rule of
the spec covers the pair: a result of another length than the read asked for, or a state without a read (log
entry 17); no reachable state meets one. -/
def State.react (r : RdResult) (s : State) : Option State :=
  match s.exSt with
  | .idle => none
  | .tx => none
  | .rxFirst =>
    match firstClass s.cfg r with
    | some cls => some (s.respond cls)
    | none => none
  | .rxAccum =>
    match r with
    | .ok [b] => some (s.accumulate b)
    | .ok [] => none
    | .ok (_ :: _ :: _) => none
    | .closed _ => some (s.raise (.malformedResponse .m1NoEnd))
    | .timeout => some (s.raise (.malformedResponse .m2Timeout))
  | .rxCksum =>
    match r with
    | .ok [c1, c2] => some (s.verify [c1, c2])
    | .ok [] => none
    | .ok [_] => none
    | .ok (_ :: _ :: _ :: _) => none
    | .closed _ => some (s.raise (.malformedResponse .m4ShortCksum))
    | .timeout => some (s.raise (.malformedResponse .m4ShortCksum))

/-! ### Dispatch (R126) -/

/-- One entry of the list: to the decoder if `EX.wid` names it (R90, R91), else out on `RD_RESP` unchanged. -/
def State.dispatchEntry (w : Nat) (r : RdResult) (s : State) : State :=
  if s.exWid = some w then
    match State.react r { s with exWid := none } with
    | some s' => s'
    | none => s.emit (.rdResp w r)
  else s.emit (.rdResp w r)

/-- Takes entries from the front of the list until it is empty, at most `fuel` of them. -/
def dispatchLoop : Nat → State → State
  | 0, s => s
  | fuel + 1, s =>
    match s.res with
    | [] => s
    | (w, r) :: rest => dispatchLoop fuel (State.dispatchEntry w r { s with res := rest })

/-- R126. The fuel is enough for the list to run empty (`dispatch_res`): an entry is worth at most two, and a
further immediate result costs the queue a byte or ends the exchange. -/
def State.dispatch (s : State) : State := dispatchLoop (s.srQ.length + 2 * s.res.length) s


/-! ### Holding a transaction -/

/-- R122 with R9: a transaction is atomic, so one in which the decoder's read would need a waiter that does not fit has no
step at all and is held (log entry 4); else it is done. -/
def finish (self : Instr) (s t : State) : Host.Outcome State Fault Refusal :=
  if s.neededWaiter t then .next (s.hold self) else .next t

end Sys2Proof.Machine
end

