-- ==== Sys2Proof/Machine/PureUnits.lean ====
section
/-! DEFINITION. The pure units as port operations (spec/42 R102, R103, R104): they read and write no state and
cannot fail as operations; their result is what they emit. -/

namespace Sys2Proof.Machine

/-- R102. -/
def execCksum (bytes : Bytes) (s : State) : Host.Outcome State Fault Refusal :=
  .next (s.emit (.cksum (ckRender (ckSum bytes))))

/-- R103. -/
def execHexenc (bytes : Bytes) (s : State) : Host.Outcome State Fault Refusal :=
  .next (s.emit (.hexenc (hexEncode bytes)))

/-- R104's result, an error included: it is returned, not raised. -/
def hexdecResult (chars : Bytes) : Bytes ⊕ HexErr :=
  match hexDecode chars with
  | .ok p => .inl p
  | .error e => .inr e

/-- R104. -/
def execHexdec (chars : Bytes) (s : State) : Host.Outcome State Fault Refusal :=
  .next (s.emit (.hexdec (hexdecResult chars)))

end Sys2Proof.Machine
end

