-- ==== Sys2Proof/Machine/Reader.lean ====
section
/-! DEFINITION. The clock and the internal read port: `ADVANCE` (spec/44 R128) and `RD_REQ` (R124). -/

namespace Sys2Proof.Machine

/-- R128: the expired waiters fail first, then a waiter behind one of them may be served (R147). -/
def execAdvance (t : Nat) (s : State) : Host.Outcome State Fault Refusal :=
  if t < s.now then .refused .timeBackwards
  else
    .next (State.dispatch (State.satisfy
      (State.failWaiters (fun w => decide (w.deadline ≤ t)) .timeout { s with now := t })))

/-- R124, R122: held where it would need a waiter and none fits. -/
def execRdReq (size timeout : Nat) (s : State) : Host.Outcome State Fault Refusal :=
  if s.readHeld size then .next (s.hold (.rdReq size timeout))
  else .next (State.dispatch (s.read size timeout))

end Sys2Proof.Machine
end

