-- ==== Sys2Proof/Machine/Request.lean ====
section
/-! DEFINITION. The request port: `EXCH` (spec/43 R113) and the four commands it selects (spec/40 R71 to R74). A
command row's instruction is the request for that one command, `EXCH <command> <operands>` (R66; log entry 7). -/

namespace Sys2Proof.Machine

/-- R63: why the request port refuses a request; `none` where it accepts it. -/
def refusalOf : Request → Option Refusal
  | .byteRead _ _ => none
  | .byteWrite _ data => if data.length ≤ 255 then none else some .dataTooLong
  | .forceOn _ => none
  | .forceOff _ => none
  | .other _ => some .unknownCommand

/-- R113, from the acceptance on: keep the frame, emit it, wait for its completion. -/
def State.accept (frame : Bytes) (s : State) : State :=
  { s.emit (.txWrite frame) with exFrame := frame, exSt := .tx }

/-- R113, R112: held while busy, refused by R63, else accepted with the frame of R71 to R74. `self` is the
instruction that waits when the request is held. -/
def submit (self : Instr) (req : Request) (s : State) : Host.Outcome State Fault Refusal :=
  if s.busy then .next (s.hold self)
  else
    match refusalOf req with
    | some r => .refused r
    | none => .next (s.accept (req.frame s.cfg))

/-- R71. -/
def execByteRead (addr : Addr16) (count : Byte) (s : State) : Host.Outcome State Fault Refusal :=
  submit (.byteRead addr count) (.byteRead addr count) s

/-- R72. -/
def execByteWrite (addr : Addr16) (data : Bytes) (s : State) : Host.Outcome State Fault Refusal :=
  submit (.byteWrite addr data) (.byteWrite addr data) s

/-- R73. -/
def execForceOn (addr : Addr16) (s : State) : Host.Outcome State Fault Refusal :=
  submit (.forceOn addr) (.forceOn addr) s

/-- R74. -/
def execForceOff (addr : Addr16) (s : State) : Host.Outcome State Fault Refusal :=
  submit (.forceOff addr) (.forceOff addr) s

/-- R113. -/
def execExch (req : Request) (s : State) : Host.Outcome State Fault Refusal :=
  submit (.exch req) req s

end Sys2Proof.Machine
end

