-- ==== Sys2Proof/Machine/Reserved.lean ====
section
/-! DEFINITION. The reserved selectors 0x9 to 0xF (spec/30 R62, R63): refused, with no step and no result. -/

namespace Sys2Proof.Machine

/-- R63, selector 0x9. -/
def execReservedOp9 (_ : State) : Host.Outcome State Fault Refusal :=
  .refused (.reservedSelector 0x9)

/-- R63, selectors 0xA and 0xB. -/
def execReservedOpAB (r : BitVec 1) (_ : State) : Host.Outcome State Fault Refusal :=
  .refused (.reservedSelector (0b101#3 ++ r))

/-- R63, selectors 0xC to 0xF. -/
def execReservedOpCF (r : BitVec 2) (_ : State) : Host.Outcome State Fault Refusal :=
  .refused (.reservedSelector (0b11#2 ++ r))

end Sys2Proof.Machine
end

