-- ==== Sys2Proof/Machine/Response.lean ====
section
/-! DEFINITION. The response classes of spec/41 (R92, R96, R97, R98): the delivery to the decoder of the result of
its first read, and the rest of the transaction that delivery is part of (log entry 8). -/

namespace Sys2Proof.Machine

/-- R90: the first read's result is delivered, `EX.wid` is cleared, the class's rule runs, and the transaction
goes on until nothing is left to dispatch (R126). -/
def State.answerFirst (cls : RespClass) (s : State) : State :=
  State.dispatch (State.respond cls { s with exWid := none })

/-- Where no first read has been answered there is nothing to deliver (R91). -/
def firstRead (cls : RespClass) (s : State) : Host.Outcome State Fault Refusal :=
  if s.firstAnswered then finish cls.instr s (s.answerFirst cls) else .refused .noFirstRead

/-- R92. -/
def execRespData (s : State) : Host.Outcome State Fault Refusal := firstRead .data s

/-- R96. -/
def execRespAck (s : State) : Host.Outcome State Fault Refusal := firstRead .ack s

/-- R97. -/
def execRespNak (s : State) : Host.Outcome State Fault Refusal := firstRead .nak s

/-- R98. -/
def execRespOther (info : NoRespInfo) (s : State) : Host.Outcome State Fault Refusal := firstRead (.other info) s

end Sys2Proof.Machine
end

