-- ==== Sys2Proof/Machine/Transport.lean ====
section
/-! DEFINITION. The transport's transactions: `TX_DONE` (spec/43 R114), `PUSH` (spec/44 R123) and `CLOSE` (R127). -/

namespace Sys2Proof.Machine

/-- R114: a completed write: the frame is emptied and the first byte is read. -/
def State.startDecoding (s : State) : State := State.dispatch (State.rx 1 { s with exFrame := [], exSt := .rxFirst })

/-- R114, R117. -/
def execTxDone (status : TxStatus) (s : State) : Host.Outcome State Fault Refusal :=
  if s.exSt = .tx then
    match status with
    | .ok => finish (.txDone .ok) s s.startDecoding
    | .err e => .next (State.dispatch (State.raise (.transportError e) { s with exFrame := [] }))
  else .refused .txDoneOutsideTx

/-- R123: dropped on a closed reader; refused where it can never fit, held where it does not fit yet (R122); else
appended, and the waiters it completes are served. -/
def execPush (chunk : Bytes) (s : State) : Host.Outcome State Fault Refusal :=
  if s.srClosed then .next s
  else if s.chunkFits chunk then .next (State.dispatch (State.satisfy { s with srQ := s.srQ ++ chunk }))
  else if withinBound chunk.length s.cfg.queueCap then .next (s.hold (.push chunk))
  else .refused .pushTooLong

/-- R127: the first close is the only one that does anything. -/
def execClose (reason : Option Reason) (s : State) : Host.Outcome State Fault Refusal :=
  if s.srClosed then .next s
  else
    .next (State.dispatch
      { State.failWaiters (fun _ => true) (.closed reason) s with srClosed := true, srReason := reason, srQ := [] })

end Sys2Proof.Machine
end

