-- ==== Sys2Proof/Machine/Dispatch.lean ====
section
/-! DEFINITION. One arm per operation, each a direct call of its meaning. -/

namespace Sys2Proof.Machine

def exec (i : Instr) (s : State) : Host.Outcome State Fault Refusal :=
  match i with
  | .byteRead addr count => Sys2Proof.Machine.execByteRead addr count s
  | .byteWrite addr data => Sys2Proof.Machine.execByteWrite addr data s
  | .forceOn addr => Sys2Proof.Machine.execForceOn addr s
  | .forceOff addr => Sys2Proof.Machine.execForceOff addr s
  | .respData => Sys2Proof.Machine.execRespData s
  | .respAck => Sys2Proof.Machine.execRespAck s
  | .respNak => Sys2Proof.Machine.execRespNak s
  | .respOther info => Sys2Proof.Machine.execRespOther info s
  | .exch req => Sys2Proof.Machine.execExch req s
  | .txDone status => Sys2Proof.Machine.execTxDone status s
  | .push chunk => Sys2Proof.Machine.execPush chunk s
  | .close reason => Sys2Proof.Machine.execClose reason s
  | .advance t => Sys2Proof.Machine.execAdvance t s
  | .rdReq size timeout => Sys2Proof.Machine.execRdReq size timeout s
  | .cksum bytes => Sys2Proof.Machine.execCksum bytes s
  | .hexenc bytes => Sys2Proof.Machine.execHexenc bytes s
  | .hexdec chars => Sys2Proof.Machine.execHexdec chars s
  | .reservedOp9 => Sys2Proof.Machine.execReservedOp9 s
  | .reservedOpAB r => Sys2Proof.Machine.execReservedOpAB r s
  | .reservedOpCF r => Sys2Proof.Machine.execReservedOpCF r s

end Sys2Proof.Machine
end

