-- ==== Sys2Proof/Machine/Fetch.lean ====
section
/-! DEFINITION. What the machine does next: the one place that looks at the ports. In this order: a transaction
whose results are not all dispatched goes on (R126); a held operation that can step does (R112, R122); the next
transaction the environment presents is taken (R147). -/

namespace Sys2Proof.Machine

/-- What the step has found to do, with the state it is done in: the operation is taken off its place there. -/
inductive Fetched where
  /-- an operation to run -/
  | instr (i : Instr) (s : State)
  /-- no operation begins: a transaction goes on -/
  | goOn (s : State)
  /-- a presented operation that has to wait behind an earlier one of its class -/
  | wait (i : Instr) (s : State)
  /-- the presented bytes are no transaction -/
  | bad (e : DecodeError)
  /-- nothing is presented and nothing held can step -/
  | idle
  deriving DecidableEq, Repr

/-- The operation has no step in this state: a request while busy (R112), a push that does not fit yet, a read that
would need a waiter, a transaction whose decoder would (R122). -/
def State.mustHold (i : Instr) (s : State) : Bool :=
  match i with
  | .byteRead _ _ => s.busy
  | .byteWrite _ _ => s.busy
  | .forceOn _ => s.busy
  | .forceOff _ => s.busy
  | .respData => s.firstAnswered && s.neededWaiter (s.answerFirst .data)
  | .respAck => s.firstAnswered && s.neededWaiter (s.answerFirst .ack)
  | .respNak => s.firstAnswered && s.neededWaiter (s.answerFirst .nak)
  | .respOther info => s.firstAnswered && s.neededWaiter (s.answerFirst (.other info))
  | .exch _ => s.busy
  | .txDone .ok => decide (s.exSt = .tx) && s.neededWaiter s.startDecoding
  | .txDone (.err _) => false
  | .push chunk => s.pushHeld chunk
  | .close _ => false
  | .advance _ => false
  | .rdReq n _ => s.readHeld n
  | .cksum _ => false
  | .hexenc _ => false
  | .hexdec _ => false
  | .reservedOp9 => false
  | .reservedOpAB _ => false
  | .reservedOpCF _ => false

/-- The first held operation that can step and has no older one of its class before it, with the others left in
their order; `seen` are the older ones passed over. -/
def pickHeld (s : State) : List Instr → List Instr → Option (Instr × List Instr)
  | _, [] => none
  | seen, i :: is =>
    if !s.mustHold i && !(seen.any fun j => holdClass j == holdClass i) then some (i, seen ++ is)
    else pickHeld s (seen ++ [i]) is

/-- The result at the front of the list of R126 as an operation: the response class, where it is the result of
the decoder's first read (R61). -/
def firstReadInstr (w : Nat) (r : RdResult) (s : State) : Option Instr :=
  if s.exWid = some w ∧ s.firstAnswered then (firstClass s.cfg r).map RespClass.instr else none

/-- Rest of a transaction that is under way (R126). -/
def fetchResult (w : Nat) (r : RdResult) (rest : List (Nat × RdResult)) (s : State) : Fetched :=
  match firstReadInstr w r s with
  | some i => .instr i { s with res := rest }
  | none => .goOn s.dispatch

/-- The next transaction the environment presents. -/
def fetchInput (s : State) : Fetched :=
  match s.inp with
  | [] => .idle
  | p :: ps =>
    if p.chan = .response then .bad .notPresented
    else
      match decodePacket s.cfg p with
      | .error e => .bad e
      | .ok i => if s.blocked i then .wait i { s with inp := ps } else .instr i { s with inp := ps }

def fetch (s : State) : Fetched :=
  match s.res with
  | (w, r) :: rest => fetchResult w r rest s
  | [] =>
    match pickHeld s [] s.held with
    | some (i, rest) => .instr i { s with held := rest }
    | none => fetchInput s

/-- The word `w` of the table where the machine takes its next operation from. A response class is taken from a
first read's result, so a first read is made outstanding and its result put at the front of R126's list; any
other is presented by the environment, with nothing under way or held before it. -/
def placeWord (s : State) (nbits w : Nat) : State :=
  match wordChan s.cfg nbits w with
  | .response =>
    { s with
      exSt := .rxFirst
      exWid := some s.srNextWid
      srNextWid := s.srNextWid + 1
      res := [(s.srNextWid, .ok [BitVec.ofNat 8 w])] }
  | .request => { s with res := [], held := [], inp := wordPacket s.cfg nbits w :: s.inp }
  | .port => { s with res := [], held := [], inp := wordPacket s.cfg nbits w :: s.inp }

end Sys2Proof.Machine
end

