-- ==== Sys2Proof/Machine/Step.lean ====
section
/-! DEFINITION. One step of the machine: one whole transaction (R9, R126; log entry 1), or nothing where there is
nothing to do. -/

namespace Sys2Proof.Machine

/-- A configuration that breaks R6 is refused. Else what `fetch` finds is done; a machine with nothing to do
stays as it is (log entry 2). -/
def step (s : State) : Host.Outcome State Fault Refusal :=
  if s.cfg.legal then
    match fetch s with
    | .instr i s' => exec i s'
    | .goOn s' => .next s'
    | .wait i s' => .next (s'.hold i)
    | .bad e => .refused (.undecodable e)
    | .idle => .next s
  else .refused .illegalConfig

/-- The state in which the next step takes the table's word `w` and runs its instruction (log entries 2, 9). -/
def State.withFetchWord (s : State) (nbits w : Nat) : State := placeWord s nbits w

end Sys2Proof.Machine
end

