-- ==== Sys2Proof/Safety.lean ====
section
/-! DEFINITION. What the statements about runs are said in: the invariants of spec/10_state.md R28, the order of the
transactions on the transmit and request ports, and the answers on the read port. -/

namespace Sys2Proof.Machine

/-- The frame of a transaction that is neither `CLOSE` nor `ADVANCE`: it leaves the configuration (R25), the clock
(R20), the closed flag and its reason (R17, R18) and what stands at the ports as they were; what was emitted
stays emitted, and read identifiers only go up (R19). -/
structure Kept (s t : State) : Prop where
  cfg : t.cfg = s.cfg
  now : t.now = s.now
  closed : t.srClosed = s.srClosed
  reason : t.srReason = s.srReason
  inp : t.inp = s.inp
  held : t.held = s.held
  out : s.out <+: t.out
  nextWid : s.srNextWid ≤ t.srNextWid

/-- R28 between transactions. To I4 it adds that the decoder's waiter has the size its state reads (R90). -/
structure State.Inv (s : State) : Prop where
  /-- I1 -/
  closedEmpty : s.srClosed = true → s.srWaiters = [] ∧ s.srQ = []
  /-- I2 -/
  headWaits : ∀ w ws, s.srWaiters = w :: ws → s.srQ.length < w.size
  /-- I3 -/
  widsDistinct : (s.srWaiters.map Waiter.wid).Nodup
  /-- I3 -/
  widsFresh : ∀ w ∈ s.srWaiters, w.wid < s.srNextWid
  /-- I4, first half -/
  readPending : ∀ w, s.exWid = some w →
    s.exSt.receiving = true ∧ ∃ x ∈ s.srWaiters, x.wid = w ∧ x.size = s.exSt.readSize
  /-- I4, second half -/
  receivingReads : s.exSt.receiving = true → s.exWid.isSome = true
  /-- I5 -/
  accEmpty : s.exSt ≠ .rxAccum → s.exSt ≠ .rxCksum → s.exAcc = []
  /-- I6 -/
  frameInTx : s.exSt = .tx ↔ s.exFrame ≠ []
  /-- I7 -/
  queueBound : withinBound s.srQ.length s.cfg.queueCap = true
  /-- I7 -/
  waiterBound : withinBound s.srWaiters.length s.cfg.maxWaiters = true
  /-- I7 -/
  accBound : withinBound s.exAcc.length s.cfg.maxRespHex = true
  /-- R126: nothing is left to dispatch -/
  settled : s.res = []

/-- R44, R110: the outputs of the transmit and request ports alternate, a request frame first; the answer is
whether an exchange is in flight after them, from whether one was before. `none`: the order is broken. -/
def exchangeOrder : Bool → List Output → Option Bool
  | busy, [] => some busy
  | busy, .txWrite _ :: os => if busy then none else exchangeOrder true os
  | busy, .exchResp _ :: os => if busy then exchangeOrder false os else none
  | busy, .rdResp _ _ :: os => exchangeOrder busy os
  | busy, .cksum _ :: os => exchangeOrder busy os
  | busy, .hexenc _ :: os => exchangeOrder busy os
  | busy, .hexdec _ :: os => exchangeOrder busy os

/-- R44, R118: every request frame sent has had exactly one answer, but for the exchange in flight. -/
def State.serial (s : State) : Prop := exchangeOrder false s.out = some s.busy

/-- The read an `RD_RESP` answers. -/
def Output.rdWid : Output → Option Nat
  | .rdResp w _ => some w
  | .txWrite _ => none
  | .exchResp _ => none
  | .cksum _ => none
  | .hexenc _ => none
  | .hexdec _ => none

/-- R120: no read has two answers on the read port, and none that is still pending has one. -/
def State.answeredOnce (s : State) : Prop :=
  (s.out.filterMap Output.rdWid ++ s.srWaiters.map Waiter.wid).Nodup ∧
    ∀ w ∈ s.out.filterMap Output.rdWid, w < s.srNextWid

/-- The bytes a list of read results delivers, in order (R42). -/
def deliveredBytes : List (Nat × RdResult) → Bytes
  | [] => []
  | (_, .ok bs) :: rs => bs ++ deliveredBytes rs
  | (_, .timeout) :: rs => deliveredBytes rs
  | (_, .closed _) :: rs => deliveredBytes rs

/-- R95 with R142: what a DATA response ends its exchange with, by its characters and its checksum characters. -/
def responseVerdict (c : Config) (h ck : Bytes) : ExResult :=
  if ck ≠ ckRender (ckSum (h ++ [c.pEnd])) then .err (.malformedResponse .m5Cksum)
  else
    match hexDecode h with
    | .error _ => .err (.malformedResponse .m6BadHex)
    | .ok p => .ok p

/-- The decoder waits for its read and no other read is pending: the full block, which no other client reads
(R122), between two transactions of an exchange. -/
def State.awaiting (s : State) (st : ExSt) (w : Waiter) : Prop :=
  s.exSt = st ∧ s.exWid = some w.wid ∧ s.srWaiters = [w] ∧ w.size = st.readSize ∧ s.srQ.length < w.size ∧
    s.srClosed = false ∧ s.res = []

/-- R94, R95, R98: what a failed read ends the exchange with, by the state it was made in and whether it timed out
(`none`) or the reader closed (`some` of the close's reason). The two states without a read have none. -/
def readFailure : ExSt → Option (Option Reason) → Option ExErr
  | .idle, _ => none
  | .tx, _ => none
  | .rxFirst, none => some (.noResponse .timeout)
  | .rxFirst, some reason => some (.noResponse (.closed reason))
  | .rxAccum, none => some (.malformedResponse .m2Timeout)
  | .rxAccum, some _ => some (.malformedResponse .m1NoEnd)
  | .rxCksum, _ => some (.malformedResponse .m4ShortCksum)

/-- R96, R97, R98: what a first byte that is no start marker ends the exchange with. -/
def firstByteResult (c : Config) (b : Byte) : ExResult :=
  if b = c.pAck then .ok []
  else if b = c.pNak then .err .unsupportedCommand
  else .err (.noResponse (.firstByte b))

/-- A held operation with the older ones `pre` before it does not go now: it has no step (R112, R122), or one of its
class is before it (log entry 3). -/
def State.cannotGo (s : State) (pre : List Instr) (i : Instr) : Prop :=
  s.mustHold i = true ∨ ∃ j ∈ pre, holdClass j = holdClass i

/-- None of the held operations goes now. -/
def State.noneGoes (s : State) (held : List Instr) : Prop :=
  ∀ pre i post, held = pre ++ i :: post → s.cannotGo pre i

/-- The request that an operation of the request port makes (R113; log entry 7). -/
def requestOf : Instr → Option Request
  | .byteRead addr count => some (.byteRead addr count)
  | .byteWrite addr data => some (.byteWrite addr data)
  | .forceOn addr => some (.forceOn addr)
  | .forceOff addr => some (.forceOff addr)
  | .exch req => some req
  | .respData => none
  | .respAck => none
  | .respNak => none
  | .respOther _ => none
  | .txDone _ => none
  | .push _ => none
  | .close _ => none
  | .advance _ => none
  | .rdReq _ _ => none
  | .cksum _ => none
  | .hexenc _ => none
  | .hexdec _ => none
  | .reservedOp9 => none
  | .reservedOpAB _ => none
  | .reservedOpCF _ => none

/-- A lowercase hex character made uppercase; any other byte unchanged (R106). -/
def upperHex (b : Byte) : Byte := if 0x61 ≤ b.toNat ∧ b.toNat ≤ 0x66 then BitVec.ofNat 8 (b.toNat - 0x20) else b

end Sys2Proof.Machine
end

