-- ==== Sys2Proof/Certificates/Slice0/Obligations.lean ====
section
/-! DEFINITION. The statements for the provers. Each docstring names the rule of spec/ it comes from; where a clause
is the model's own choice it names the log entry. -/

open Sys2Proof Sys2Proof.Machine

/-! ### The pure units (spec/42) -/

/-- R100. -/
def Obligations.ChecksumIsSumMod256 : Prop :=
  ∀ bs : Bytes, (ckSum bs).toNat = (bs.map BitVec.toNat).sum % 256

/-- R105: the step form, concatenation, order independence, and the checksum of a request. -/
def Obligations.ChecksumLaws : Prop :=
  (∀ (bs : Bytes) (b : Byte), ckSum (bs ++ [b]) = ckSum bs + b) ∧
  (∀ a b : Bytes, ckSum (a ++ b) = ckSum a + ckSum b) ∧
  (∀ a b : Bytes, a.Perm b → ckSum a = ckSum b) ∧
  (∀ (c : Config) (id : Nat) (p : Bytes),
    ckSum ([cmdByte id] ++ hexEncode p ++ [c.pEnd]) = BitVec.ofNat 8 (0x30 + id) + ckSum (hexEncode p) + c.pEnd)

/-- R101: two characters, uppercase, high nibble first. -/
def Obligations.RenderingIsTwoUppercaseChars : Prop :=
  ∀ v : Byte, ckRender v = [hexUpTable.getD (v.toNat / 16) 0, hexUpTable.getD (v.toNat % 16) 0] ∧
    (ckRender v).length = 2

/-- R103: two uppercase characters a byte, in order, high nibble first; twice the length, all in HEXUP. -/
def Obligations.HexEncodeUppercasePairs : Prop :=
  ∀ p : Bytes, (hexEncode p).length = 2 * p.length ∧ (∀ ch ∈ hexEncode p, ch ∈ hexUpTable) ∧
    ∀ i < p.length,
      (hexEncode p).getD (2 * i) 0 = hexUpTable.getD ((p.getD i 0).toNat / 16) 0 ∧
      (hexEncode p).getD (2 * i + 1) 0 = hexUpTable.getD ((p.getD i 0).toNat % 16) 0

/-- R104: the odd-length check first, then the first character outside the alphabet, else one byte a pair, the
first character its high nibble; a character's value is that of its uppercase form. -/
def Obligations.HexDecodeByRule : Prop :=
  (∀ (ch : Byte) (n : Nibble), nib ch = some n ↔ upperHex ch = hexUp n) ∧
  ∀ s : Bytes,
    (s.length % 2 = 1 → hexDecode s = .error .oddLength) ∧
    (s.length % 2 = 0 → ∀ i, hexDecode s = .error (.badChar i) ↔
      i < s.length ∧ nib (s.getD i 0) = none ∧ ∀ j < i, nib (s.getD j 0) ≠ none) ∧
    (s.length % 2 = 0 → (∀ ch ∈ s, nib ch ≠ none) → ∃ out, hexDecode s = .ok out ∧ out.length = s.length / 2 ∧
      ∀ j < s.length / 2, ∃ hi lo, nib (s.getD (2 * j) 0) = some hi ∧ nib (s.getD (2 * j + 1) 0) = some lo ∧
        (out.getD j 0).toNat = 16 * hi.toNat + lo.toNat)

/-- R106, both halves. -/
def Obligations.HexRoundTrip : Prop :=
  (∀ p : Bytes, hexDecode (hexEncode p) = .ok p) ∧
  ∀ s p : Bytes, hexDecode s = .ok p → hexEncode p = s.map upperHex

/-- R102, R103, R104 as port operations: their result is emitted and nothing else changes. (That the result goes
out on an output port is the model's: log entry 5.) -/
def Obligations.PureUnitsOnlyAnswer : Prop :=
  ∀ (bs : Bytes) (s : State),
    exec (.cksum bs) s = .next { s with out := s.out ++ [.cksum (ckRender (ckSum bs))] } ∧
    exec (.hexenc bs) s = .next { s with out := s.out ++ [.hexenc (hexEncode bs)] } ∧
    (∀ p, hexDecode bs = .ok p → exec (.hexdec bs) s = .next { s with out := s.out ++ [.hexdec (.inl p)] }) ∧
    (∀ e, hexDecode bs = .error e → exec (.hexdec bs) s = .next { s with out := s.out ++ [.hexdec (.inr e)] })

/-! ### Request frames (spec/30 R51 to R57, spec/40) -/

/-- R51: the five fields at their offsets, and the length. -/
def Obligations.RequestFrameLayout : Prop :=
  ∀ (c : Config) (id : Nat) (p : Bytes),
    (encFrame c id p).length = 2 * p.length + 5 ∧
    (encFrame c id p).getD 0 0 = c.pStart ∧
    (encFrame c id p).getD 1 0 = BitVec.ofNat 8 (0x30 + id) ∧
    ((encFrame c id p).drop 2).take (2 * p.length) = hexEncode p ∧
    (encFrame c id p).getD (2 * p.length + 2) 0 = c.pEnd ∧
    (encFrame c id p).drop (2 * p.length + 3) =
      ckRender (ckSum ([BitVec.ofNat 8 (0x30 + id)] ++ hexEncode p ++ [c.pEnd]))

/-- R70, corner cases: after the start marker the end marker stands exactly once in a frame, so the frame's end
can be found. (The start marker is left out: R6 does not forbid it to equal the end marker.) -/
def Obligations.EndMarkerStandsOnce : Prop :=
  ∀ (c : Config) (id : Nat) (p : Bytes), c.legal = true → id ≤ 9 → (encFrame c id p).tail.count c.pEnd = 1

/-- R71, R72, R113: an idle block accepts a byte-read and a byte-write of at most 255 bytes, sends the frame with the
address big-endian (R33), and changes nothing else. -/
def Obligations.ByteRequestAccepted : Prop :=
  ∀ (addr : Addr16) (count : Byte) (data : Bytes) (s : State), s.exSt = .idle →
    (let f := encFrame s.cfg s.cfg.cmdBR [addr.extractLsb' 8 8, addr.extractLsb' 0 8, count]
     f.length = 11 ∧
     exec (.byteRead addr count) s = .next { s with exFrame := f, exSt := .tx, out := s.out ++ [.txWrite f] }) ∧
    (data.length ≤ 255 →
      let f := encFrame s.cfg s.cfg.cmdBW
        ([addr.extractLsb' 8 8, addr.extractLsb' 0 8, BitVec.ofNat 8 data.length] ++ data)
      f.length = 2 * data.length + 11 ∧
      exec (.byteWrite addr data) s = .next { s with exFrame := f, exSt := .tx, out := s.out ++ [.txWrite f] })

/-- R73, R74, R113: the same for the two force commands, with the address little-endian (R34). -/
def Obligations.ForceRequestAccepted : Prop :=
  ∀ (addr : Addr16) (s : State), s.exSt = .idle →
    (let f := encFrame s.cfg s.cfg.cmdFON [addr.extractLsb' 0 8, addr.extractLsb' 8 8]
     f.length = 9 ∧
     exec (.forceOn addr) s = .next { s with exFrame := f, exSt := .tx, out := s.out ++ [.txWrite f] }) ∧
    (let f := encFrame s.cfg s.cfg.cmdFOFF [addr.extractLsb' 0 8, addr.extractLsb' 8 8]
     f.length = 9 ∧
     exec (.forceOff addr) s = .next { s with exFrame := f, exSt := .tx, out := s.out ++ [.txWrite f] })

/-- R113: in an idle block `EXCH` of each command does what R71 to R74 say, and changes nothing else. -/
def Obligations.ExchAccepted : Prop :=
  ∀ (addr : Addr16) (count : Byte) (data : Bytes) (s : State), s.exSt = .idle →
    (exec (.exch (.byteRead addr count)) s =
      let f := encFrame s.cfg s.cfg.cmdBR [addr.extractLsb' 8 8, addr.extractLsb' 0 8, count]
      .next { s with exFrame := f, exSt := .tx, out := s.out ++ [.txWrite f] }) ∧
    (data.length ≤ 255 → exec (.exch (.byteWrite addr data)) s =
      let f := encFrame s.cfg s.cfg.cmdBW
        ([addr.extractLsb' 8 8, addr.extractLsb' 0 8, BitVec.ofNat 8 data.length] ++ data)
      .next { s with exFrame := f, exSt := .tx, out := s.out ++ [.txWrite f] }) ∧
    (exec (.exch (.forceOn addr)) s =
      let f := encFrame s.cfg s.cfg.cmdFON [addr.extractLsb' 0 8, addr.extractLsb' 8 8]
      .next { s with exFrame := f, exSt := .tx, out := s.out ++ [.txWrite f] }) ∧
    (exec (.exch (.forceOff addr)) s =
      let f := encFrame s.cfg s.cfg.cmdFOFF [addr.extractLsb' 0 8, addr.extractLsb' 8 8]
      .next { s with exFrame := f, exSt := .tx, out := s.out ++ [.txWrite f] })

/-- R63: the idle request port refuses a command outside the four and a byte-write of more than 255 bytes, and every
port refuses the reserved selectors, in every state. -/
def Obligations.RefusedRequests : Prop :=
  ∀ s : State,
    (s.exSt = .idle → ∀ code, exec (.exch (.other code)) s = .refused .unknownCommand) ∧
    (s.exSt = .idle → ∀ (addr : Addr16) (data : Bytes), 255 < data.length →
      exec (.exch (.byteWrite addr data)) s = .refused .dataTooLong ∧
      exec (.byteWrite addr data) s = .refused .dataTooLong) ∧
    exec .reservedOp9 s = .refused (.reservedSelector 9) ∧
    (∀ r : BitVec 1, exec (.reservedOpAB r) s = .refused (.reservedSelector (BitVec.ofNat 4 (10 + r.toNat)))) ∧
    (∀ r : BitVec 2, exec (.reservedOpCF r) s = .refused (.reservedSelector (BitVec.ofNat 4 (12 + r.toNat))))

/-- R112: a request presented while an exchange is in flight is neither refused nor taken: it waits, and the
architectural state does not change. (The list it waits in is the model's: log entry 3.) -/
def Obligations.BusyRequestHeld : Prop :=
  ∀ (i : Instr) (s : State), holdClass i = some .request → s.exSt ≠ .idle →
    exec i s = .next { s with held := s.held ++ [i] }

/-! ### Decoding (spec/30 R60 to R63) -/

/-- Every well-formed instruction that has a word is read back from its word, whatever follows it, with every
operand at every value. (The packet form of the port operands is the model's: log entry 6.) -/
def Obligations.DecodeOfEncode : Prop :=
  ∀ (c : Config) (i : Instr) (rest : Bytes), c.legal = true → i.wf c = true → i.hasWord = true →
    decode c i.chan (encode c i ++ rest) = .ok (i, rest)

/-- The other direction: what the decoder reads is a well-formed instruction of that format, and the bytes it read are
that instruction's word. (The packet form of the port operands is the model's: log entry 6; that a frame has one accepted form,
uppercase with the exact checksum, is too: log entry 7.) -/
def Obligations.EncodeOfDecode : Prop :=
  ∀ (c : Config) (ch : Chan) (bs rest : Bytes) (i : Instr), decode c ch bs = .ok (i, rest) →
    i.chan = ch ∧ i.wf c = true ∧ encode c i ++ rest = bs

/-- R60 to R63, R73: words written out from the spec's encodings decode to the operations they stand for. (The marker
bytes are general knowledge: log entry 10; the packet form of `PUSH` is the model's: log entry 6.) -/
def Obligations.SpecWordsDecode : Prop :=
  decode .vectors .request [0x02, 0x30, 0x31, 0x30, 0x46, 0x36, 0x30, 0x34, 0x03, 0x37, 0x34] =
    .ok (.byteRead 0x10F6 4, []) ∧
  decode .vectors .request [0x02, 0x37, 0x30, 0x35, 0x30, 0x39, 0x03, 0x30, 0x38] = .ok (.forceOn 0x0905, []) ∧
  decode .vectors .response [0x06, 0x41] = .ok (.respAck, [0x41]) ∧
  decode .vectors .response [0x30] = .ok (.respOther (.firstByte 0x30), []) ∧
  decode .vectors .port [0x02, 0x01, 0x36] = .ok (.push [0x36], []) ∧
  decode .vectors .port [0x0E] = .ok (.reservedOpCF 2, []) ∧
  decode .vectors .port [0x10] = .error .badSelectorByte

/-- R61: the class of a response by its first byte. -/
def Obligations.FirstByteClasses : Prop :=
  ∀ (c : Config) (b : Byte), c.legal = true →
    (classifyByte c b = .data ↔ b = c.pStart) ∧
    (classifyByte c b = .ack ↔ b = c.pAck) ∧
    (classifyByte c b = .nak ↔ b = c.pNak) ∧
    (classifyByte c b = .other (.firstByte b) ↔ b ≠ c.pStart ∧ b ≠ c.pAck ∧ b ≠ c.pNak)

/-- R71 to R74, R113: an idle block given the request that a frame on the wire decodes to sends exactly that frame.
(Presenting a request in its wire form is the model's: log entry 7.) -/
def Obligations.DecodedRequestSendsItsFrame : Prop :=
  ∀ (s : State) (f : Bytes) (i : Instr), s.cfg.legal = true → s.exSt = .idle →
    decode s.cfg .request f = .ok (i, []) →
    exec i s = .next { s with exFrame := f, exSt := .tx, out := s.out ++ [.txWrite f] }

/-! ### One step -/

/-- With nothing under way and no held operation that goes now, the step looks at the next presented transaction: it runs the
operation its bytes decode to, taken off the list, or, where an older one of its class is held, lets it join the held ones
(R42, R44; log entries 2, 3). Bytes that are no transaction (log entry 6) and a response presented as one (log entry 8) are
refused by name. -/
def Obligations.StepRunsPresented : Prop :=
  ∀ (s : State) (p : Packet) (ps : List Packet),
    s.cfg.legal = true → s.res = [] → s.noneGoes s.held → s.inp = p :: ps →
    (p.chan = .response → step s = .refused (.undecodable .notPresented)) ∧
    (p.chan ≠ .response →
      (∀ e, decodePacket s.cfg p = .error e → step s = .refused (.undecodable e)) ∧
      ∀ i, decodePacket s.cfg p = .ok i →
        ((∀ j ∈ s.held, holdClass i = none ∨ holdClass j ≠ holdClass i) → step s = exec i { s with inp := ps }) ∧
        (holdClass i ≠ none → (∃ j ∈ s.held, holdClass j = holdClass i) →
          step s = .next { s with inp := ps, held := s.held ++ [i] }))

/-- Where the result of the decoder's first read is next in the transaction under way, the step runs the response class of
that result (R61). That a step can begin inside a transaction, and runs one response operation there, is the model's
mechanism: the list of results is a field (log entry 1) and the response rows are taken from its front (log entry 8). -/
def Obligations.StepRunsFirstRead : Prop :=
  ∀ (s : State) (w : Nat) (r : RdResult) (rest : List (Nat × RdResult)) (cls : RespClass),
    s.cfg.legal = true → s.res = (w, r) :: rest → s.exWid = some w → s.firstAnswered = true →
    firstClass s.cfg r = some cls →
    step s = exec cls.instr { s with res := rest }

/-- R112, R122: the oldest held operation that can step, with no older one of its class before it, goes before anything else
is taken (log entry 3): a held push once it fits, a held read once it is served or a waiter fits, a held `TX_DONE` once a
waiter fits. With no held operation that goes and nothing presented the machine stays as it is (log entry 2). -/
def Obligations.StepTakesHeldThenIdles : Prop :=
  ∀ s : State, s.cfg.legal = true → s.res = [] →
    (∀ pre i post, s.held = pre ++ i :: post → s.noneGoes pre → ¬s.cannotGo pre i →
      step s = exec i { s with held := pre ++ post }) ∧
    (∀ pre chunk post, s.held = pre ++ .push chunk :: post → s.noneGoes pre → (∀ j ∈ pre, holdClass j ≠ some .push) →
      withinBound (s.srQ.length + chunk.length) s.cfg.queueCap = true →
      step s = exec (.push chunk) { s with held := pre ++ post }) ∧
    (∀ pre n τ post, s.held = pre ++ .rdReq n τ :: post → s.noneGoes pre → (∀ j ∈ pre, holdClass j ≠ some .read) →
      (s.srClosed = true ∨ n ≤ s.srQ.length ∨ s.waitersFull = false) →
      step s = exec (.rdReq n τ) { s with held := pre ++ post }) ∧
    (∀ pre status post, s.held = pre ++ .txDone status :: post → s.noneGoes pre →
      (∀ j ∈ pre, holdClass j ≠ some .completion) → s.waitersFull = false →
      step s = exec (.txDone status) { s with held := pre ++ post }) ∧
    (s.noneGoes s.held → s.inp = [] → step s = .next s)

/-- R112: the oldest held request, in either of its forms and behind whatever else is held and cannot go, where R63 does not
refuse it, is accepted by the first step that finds the exchange in flight ended, with the frame of its command. (The held
list is the model's: log entry 3; the command rows as requests: log entry 7.) -/
def Obligations.HeldRequestAccepted : Prop :=
  ∀ (s : State) (i : Instr) (req : Request) (pre post : List Instr),
    s.cfg.legal = true → s.res = [] → s.exSt = .idle → s.held = pre ++ i :: post → s.noneGoes pre →
    (∀ j ∈ pre, holdClass j ≠ some .request) → requestOf i = some req → refusalOf req = none →
    step s = .next { s with
      held := pre ++ post, exFrame := req.frame s.cfg, exSt := .tx, out := s.out ++ [.txWrite (req.frame s.cfg)] }

/-- R6: a configuration is legal exactly under R6's conditions and the types of R5's bounds, and every step of one
that is not is refused (in every step: log entry 12). -/
def Obligations.IllegalConfigurationRefused : Prop :=
  ∀ s : State, (s.cfg.legal = false → step s = .refused .illegalConfig) ∧
    (s.cfg.legal = true ↔
      (s.cfg.pStart ≠ s.cfg.pAck ∧ s.cfg.pStart ≠ s.cfg.pNak ∧ s.cfg.pAck ≠ s.cfg.pNak) ∧
      (s.cfg.pEnd ∉ hexAlpha ∧ ¬(0x30 ≤ s.cfg.pEnd.toNat ∧ s.cfg.pEnd.toNat ≤ 0x39)) ∧
      ([s.cfg.cmdBR, s.cfg.cmdBW, s.cfg.cmdFON, s.cfg.cmdFOFF].Nodup ∧
        ∀ id ∈ [s.cfg.cmdBR, s.cfg.cmdBW, s.cfg.cmdFON, s.cfg.cmdFOFF], id ≤ 9) ∧
      (∀ m, s.cfg.queueCap = some m → 2 ≤ m) ∧ (∀ m, s.cfg.maxWaiters = some m → 1 ≤ m))

/-! ### Response classes (spec/41) -/

/-- R96, R97, R98, R115: an ACK, a NAK, any other first byte and a failed first read end the exchange at once with
the rule's result; nothing more is read and nothing else changes. -/
def Obligations.OneByteResponsesEndExchange : Prop :=
  ∀ s : State, s.firstAnswered = true → s.res = [] →
    exec .respAck s = .next { s with
      out := s.out ++ [.exchResp (.ok [])], exSt := .idle, exAcc := [], exWid := none, exFrame := [] } ∧
    exec .respNak s = .next { s with
      out := s.out ++ [.exchResp (.err .unsupportedCommand)], exSt := .idle, exAcc := [], exWid := none, exFrame := [] } ∧
    ∀ info, exec (.respOther info) s = .next { s with
      out := s.out ++ [.exchResp (.err (.noResponse info))], exSt := .idle, exAcc := [], exWid := none, exFrame := [] }

/-- R92, R90, R124: a start marker empties the accumulator and, where no byte is buffered, leaves the decoder waiting
for one byte with its own full timeout; on a closed reader the exchange ends with `M1_NO_END` (R94). Where no waiter fits the
operation is held (R122; log entry 4). -/
def Obligations.StartMarkerBeginsAccumulation : Prop :=
  ∀ s : State, s.firstAnswered = true → s.res = [] → s.srQ = [] →
    (s.srClosed = false → s.waitersFull = false → exec .respData s = .next { s with
      exSt := .rxAccum
      exAcc := []
      exWid := some s.srNextWid
      srNextWid := s.srNextWid + 1
      srWaiters := s.srWaiters ++ [⟨s.srNextWid, 1, s.now + s.cfg.readTimeout⟩] }) ∧
    (s.srClosed = false → s.waitersFull = true → exec .respData s = .next { s with held := s.held ++ [.respData] }) ∧
    (s.srClosed = true → exec .respData s = .next { s with
      exSt := .idle
      exAcc := []
      exWid := none
      exFrame := []
      srNextWid := s.srNextWid + 1
      out := s.out ++ [.exchResp (.err (.malformedResponse .m1NoEnd))] })

/-- R91: a response class has nothing to run on where no first read has been answered (log entry 8); where one has, it
completes, and it is held only where it would register a waiter and none fits (R122; log entry 4). -/
def Obligations.ResponseNeedsFirstRead : Prop :=
  ∀ (s : State) (cls : RespClass),
    (s.firstAnswered = false → exec cls.instr s = .refused .noFirstRead) ∧
    (s.firstAnswered = true → s.waitersFull = false → ∃ t, exec cls.instr s = .next t ∧ t.res = [] ∧ Kept s t) ∧
    (s.firstAnswered = true → s.waitersFull = true →
      exec cls.instr s =
        if s.srWaiters.length < (s.answerFirst cls).srWaiters.length then .next { s with held := s.held ++ [cls.instr] }
        else .next (s.answerFirst cls))

/-- R90, R126: what a transaction does with the result of the decoder's first read is the meaning of its class (log entry 8),
where it registers no waiter that does not fit (R122; log entry 4). -/
def Obligations.CascadeRunsResponseClass : Prop :=
  ∀ (s : State) (w : Nat) (r : RdResult) (rest : List (Nat × RdResult)) (cls : RespClass),
    s.res = (w, r) :: rest → s.exWid = some w → s.firstAnswered = true → firstClass s.cfg r = some cls →
    (s.waitersFull = false ∨ s.dispatch.srWaiters.length ≤ s.srWaiters.length) →
    exec cls.instr { s with res := rest } = .next s.dispatch

/-- R96, R97: a first byte that is the ACK marker ends the exchange with an empty payload, one that is the NAK marker with
`UnsupportedCommand`; no further byte is read and nothing else changes. -/
def Obligations.FirstByteAckAndNakEndExchange : Prop :=
  ∀ (s : State) (w : Nat) (b : Byte),
    s.cfg.legal = true → s.res = [(w, .ok [b])] → s.exWid = some w → s.firstAnswered = true →
    (b = s.cfg.pAck → step s = .next { s with
      res := []
      out := s.out ++ [.exchResp (.ok [])]
      exSt := .idle
      exAcc := []
      exWid := none
      exFrame := [] }) ∧
    (b = s.cfg.pNak → step s = .next { s with
      res := []
      out := s.out ++ [.exchResp (.err .unsupportedCommand)]
      exSt := .idle
      exAcc := []
      exWid := none
      exFrame := [] })

/-- R93, R94: the result of a read in state RX_ACCUM, with nothing buffered behind it: a character joins the accumulator
and one more byte is awaited; the end marker is dropped and the two checksum characters are awaited; a closed
stream and a timeout end the exchange. -/
def Obligations.AccumulationByRule : Prop :=
  ∀ (s : State) (w : Nat) (r : RdResult),
    s.cfg.legal = true → s.exSt = .rxAccum → s.res = [(w, r)] → s.exWid = some w → s.srQ = [] →
    (∀ b, r = .ok [b] → b ≠ s.cfg.pEnd → withinBound (s.exAcc.length + 1) s.cfg.maxRespHex = true →
      s.srClosed = false → s.waitersFull = false → step s = .next { s with
        res := []
        exAcc := s.exAcc ++ [b]
        exWid := some s.srNextWid
        srNextWid := s.srNextWid + 1
        srWaiters := s.srWaiters ++ [⟨s.srNextWid, 1, s.now + s.cfg.readTimeout⟩] }) ∧
    (r = .ok [s.cfg.pEnd] → s.srClosed = false → s.waitersFull = false → step s = .next { s with
        res := []
        exSt := .rxCksum
        exWid := some s.srNextWid
        srNextWid := s.srNextWid + 1
        srWaiters := s.srWaiters ++ [⟨s.srNextWid, 2, s.now + s.cfg.readTimeout⟩] }) ∧
    (∀ reason, r = .closed reason → step s = .next { s with
        res := []
        out := s.out ++ [.exchResp (.err (.malformedResponse .m1NoEnd))]
        exSt := .idle
        exAcc := []
        exWid := none
        exFrame := [] }) ∧
    (r = .timeout → step s = .next { s with
        res := []
        out := s.out ++ [.exchResp (.err (.malformedResponse .m2Timeout))]
        exSt := .idle
        exAcc := []
        exWid := none
        exFrame := [] })

/-- R95: the result of the read in state RX_CKSUM ends the exchange: a failed read with `M4_SHORT_CKSUM`; a pair that is not
the rendered checksum of the accumulated characters and the end marker with `M5_CKSUM`; else characters that are no hex with
`M6_BAD_HEX`; else the decoded payload. Nothing else changes. -/
def Obligations.ChecksumPairDecidesResult : Prop :=
  ∀ (s : State) (w : Nat) (r : RdResult),
    s.cfg.legal = true → s.exSt = .rxCksum → s.res = [(w, r)] → s.exWid = some w →
    let done (x : ExResult) : State := { s with
      res := [], out := s.out ++ [.exchResp x], exSt := .idle, exAcc := [], exWid := none, exFrame := [] }
    ((r = .timeout ∨ ∃ reason, r = .closed reason) → step s = .next (done (.err (.malformedResponse .m4ShortCksum)))) ∧
    ∀ c1 c2, r = .ok [c1, c2] →
      ([c1, c2] ≠ ckRender (ckSum (s.exAcc ++ [s.cfg.pEnd])) →
        step s = .next (done (.err (.malformedResponse .m5Cksum)))) ∧
      ([c1, c2] = ckRender (ckSum (s.exAcc ++ [s.cfg.pEnd])) →
        (∀ e, hexDecode s.exAcc = .error e → step s = .next (done (.err (.malformedResponse .m6BadHex)))) ∧
        (∀ p, hexDecode s.exAcc = .ok p → step s = .next (done (.ok p))))

/-- R52, R92 to R95, R99: in the full block, a DATA response pushed whole while the first byte is awaited ends the
exchange in that one transaction, with the verdict of R95 on its characters; every byte after the checksum stays
buffered, and each byte up to the end marker and the checksum pair took one read. -/
def Obligations.DataResponseDecoded : Prop :=
  ∀ (s : State) (w : Waiter) (h left : Bytes) (c1 c2 : Byte),
    s.cfg.legal = true → s.awaiting .rxFirst w → s.cfg.pEnd ∉ h → withinBound h.length s.cfg.maxRespHex = true →
    s.chunkFits ([s.cfg.pStart] ++ h ++ [s.cfg.pEnd, c1, c2] ++ left) = true →
    exec (.push ([s.cfg.pStart] ++ h ++ [s.cfg.pEnd, c1, c2] ++ left)) s = .next { s with
      srQ := left
      srWaiters := []
      srNextWid := s.srNextWid + h.length + 2
      exSt := .idle
      exAcc := []
      exWid := none
      exFrame := []
      out := s.out ++ [.exchResp (responseVerdict s.cfg h [c1, c2])] }

/-- R95, R106, R114, R126: a peer's DATA response for any payload that the accumulator can hold, buffered before the
frame's completion is reported, is decoded to that payload inside the one `TX_DONE`. -/
def Obligations.EarlyResponseDecodedAtTxDone : Prop :=
  ∀ (s : State) (p left : Bytes),
    s.cfg.legal = true → s.exSt = .tx → s.exAcc = [] → s.res = [] → s.srWaiters = [] → s.srClosed = false →
    withinBound (2 * p.length) s.cfg.maxRespHex = true →
    s.srQ = dataResponse s.cfg (hexEncode p) ++ left →
    exec (.txDone .ok) s = .next { s with
      srQ := left
      srNextWid := s.srNextWid + 2 * p.length + 3
      exSt := .idle
      exAcc := []
      exWid := none
      exFrame := []
      out := s.out ++ [.exchResp (.ok p)] }

/-- R93, R142: the character that finds the accumulator full ends the exchange with `M3_OVERFLOW`; it is consumed, and
the rest of the frame stays buffered (R162). -/
def Obligations.OverflowEndsExchange : Prop :=
  ∀ (s : State) (w : Waiter) (h left : Bytes) (b : Byte),
    s.cfg.legal = true → s.awaiting .rxFirst w → s.cfg.pEnd ∉ h → b ≠ s.cfg.pEnd → s.cfg.maxRespHex = some h.length →
    s.chunkFits ([s.cfg.pStart] ++ h ++ [b] ++ left) = true →
    exec (.push ([s.cfg.pStart] ++ h ++ [b] ++ left)) s = .next { s with
      srQ := left
      srWaiters := []
      srNextWid := s.srNextWid + h.length + 1
      exSt := .idle
      exAcc := []
      exWid := none
      exFrame := []
      out := s.out ++ [.exchResp (.err (.malformedResponse .m3Overflow))] }

/-- R94, R95, R98, R127: in the full block, closing the stream ends the exchange with the error of the state its read
was made in, fails no other read, and drops the buffered bytes. -/
def Obligations.CloseEndsExchange : Prop :=
  ∀ (s : State) (st : ExSt) (w : Waiter) (reason : Option Reason) (e : ExErr),
    s.awaiting st w → readFailure st (some reason) = some e →
    exec (.close reason) s = .next { s with
      srClosed := true
      srReason := reason
      srQ := []
      srWaiters := []
      exSt := .idle
      exAcc := []
      exWid := none
      exFrame := []
      out := s.out ++ [.exchResp (.err e)] }

/-- R94, R95, R98, R128: the first `ADVANCE` at or past the deadline of the decoder's read ends the exchange with the
error of its state and consumes no byte; one before it changes the clock alone. -/
def Obligations.DeadlineEndsExchange : Prop :=
  ∀ (s : State) (st : ExSt) (w : Waiter) (t : Nat) (e : ExErr),
    s.awaiting st w → s.now ≤ t → readFailure st none = some e →
    (w.deadline ≤ t → exec (.advance t) s = .next { s with
      now := t
      srWaiters := []
      exSt := .idle
      exAcc := []
      exWid := none
      exFrame := []
      out := s.out ++ [.exchResp (.err e)] }) ∧
    (t < w.deadline → exec (.advance t) s = .next { s with now := t })

/-! ### Exchange sequencer (spec/43) -/

/-- R114, R115: a transport error ends the exchange with that error unchanged, and nothing is read. -/
def Obligations.TransportErrorEndsExchange : Prop :=
  ∀ (s : State) (e : TransportErr), s.exSt = .tx → s.res = [] →
    exec (.txDone (.err e)) s = .next { s with
      out := s.out ++ [.exchResp (.err (.transportError e))], exSt := .idle, exAcc := [], exWid := none, exFrame := [] }

/-- R114, R90, R124: a completed write empties the frame and, where no byte is buffered, leaves the decoder waiting for
the first byte; on a closed reader the exchange ends with `NoResponse(CLOSED)` (R98). Where no waiter fits the transaction has
no step and is held, whole (R122, R9; log entry 4). -/
def Obligations.TxDoneStartsDecoding : Prop :=
  ∀ s : State, s.exSt = .tx → s.res = [] → s.srQ = [] →
    (s.srClosed = false → s.waitersFull = false → exec (.txDone .ok) s = .next { s with
      exFrame := []
      exSt := .rxFirst
      exWid := some s.srNextWid
      srNextWid := s.srNextWid + 1
      srWaiters := s.srWaiters ++ [⟨s.srNextWid, 1, s.now + s.cfg.readTimeout⟩] }) ∧
    (s.srClosed = false → s.waitersFull = true → exec (.txDone .ok) s = .next { s with held := s.held ++ [.txDone .ok] }) ∧
    (s.srClosed = true → exec (.txDone .ok) s = .next { s with
      exFrame := []
      exSt := .idle
      exAcc := []
      exWid := none
      srNextWid := s.srNextWid + 1
      out := s.out ++ [.exchResp (.err (.noResponse (.closed s.srReason)))] })

/-- R117: a `TX_DONE` outside state TX is refused, never taken as a step; in TX it completes, and it is held only where it
would register a waiter and none fits (R122; log entry 4). -/
def Obligations.TxDoneOnlyInTx : Prop :=
  ∀ (s : State) (status : TxStatus),
    (s.exSt ≠ .tx → exec (.txDone status) s = .refused .txDoneOutsideTx) ∧
    (s.exSt = .tx → (status = .ok → s.waitersFull = false) →
      ∃ t, exec (.txDone status) s = .next t ∧ t.exFrame = [] ∧ t.res = [] ∧ Kept s t) ∧
    (s.exSt = .tx → s.waitersFull = true →
      exec (.txDone .ok) s =
        if s.srWaiters.length < s.startDecoding.srWaiters.length then .next { s with held := s.held ++ [.txDone .ok] }
        else .next s.startDecoding)

/-! ### Stream reader (spec/44) -/

/-- R123, R122: a push is dropped on a closed reader; on an open one it is appended where it fits and no read is
pending, held where it does not fit yet, and refused where it never can. (On a closed reader an oversized chunk is
dropped too: log entry 14; the held list is the model's: log entry 3.) -/
def Obligations.PushBuffersHoldsOrRefuses : Prop :=
  ∀ (s : State) (chunk : Bytes),
    (s.srClosed = true → exec (.push chunk) s = .next s) ∧
    (s.srClosed = false → withinBound (s.srQ.length + chunk.length) s.cfg.queueCap = true →
      (∃ t, exec (.push chunk) s = .next t ∧ t.res = [] ∧ Kept s t) ∧
      (s.srWaiters = [] → s.res = [] → exec (.push chunk) s = .next { s with srQ := s.srQ ++ chunk })) ∧
    (s.srClosed = false → withinBound (s.srQ.length + chunk.length) s.cfg.queueCap = false →
      (withinBound chunk.length s.cfg.queueCap = true →
        exec (.push chunk) s = .next { s with held := s.held ++ [.push chunk] }) ∧
      (withinBound chunk.length s.cfg.queueCap = false → exec (.push chunk) s = .refused .pushTooLong))

/-- R42, R43, R125: with only standalone reads pending, a push serves the oldest waiters, each with exactly its size from
the front, stops at the first it cannot serve, loses and reorders no byte, and changes nothing else. -/
def Obligations.PushServesOldestFirst : Prop :=
  ∀ (s : State) (chunk : Bytes), s.srClosed = false → s.chunkFits chunk = true → s.exWid = none → s.res = [] →
    ∃ served rest results,
      s.srWaiters = served ++ rest ∧
      exec (.push chunk) s = .next { s with
        srWaiters := rest
        srQ := (s.srQ ++ chunk).drop (served.map Waiter.size).sum
        out := s.out ++ results.map fun x => .rdResp x.1 x.2 } ∧
      List.Forall₂ (fun w x => ∃ bs, x = (w.wid, RdResult.ok bs) ∧ bs.length = w.size) served results ∧
      deliveredBytes results ++ (s.srQ ++ chunk).drop (served.map Waiter.size).sum = s.srQ ++ chunk ∧
      ∀ w tail, rest = w :: tail → ((s.srQ ++ chunk).drop (served.map Waiter.size).sum).length < w.size

/-- R124: a standalone read fails on a closed reader, is served at once where enough bytes are buffered (whatever other
reads are pending), waits with its deadline otherwise, and is held where no waiter fits (R122; the held list is the model's: log entry 3).
The last premise of the first line holds in every state that keeps `State.Inv`. -/
def Obligations.ReadRequestByRule : Prop :=
  ∀ (s : State) (n t : Nat), s.res = [] → s.exWid ≠ some s.srNextWid →
    (s.srClosed = true → exec (.rdReq n t) s = .next { s with
      srNextWid := s.srNextWid + 1
      out := s.out ++ [.rdResp s.srNextWid (.closed s.srReason)] }) ∧
    (s.srClosed = false → n ≤ s.srQ.length → exec (.rdReq n t) s = .next { s with
      srNextWid := s.srNextWid + 1
      srQ := s.srQ.drop n
      out := s.out ++ [.rdResp s.srNextWid (.ok (s.srQ.take n))] }) ∧
    (s.srClosed = false → s.srQ.length < n → s.waitersFull = false → exec (.rdReq n t) s = .next { s with
      srNextWid := s.srNextWid + 1
      srWaiters := s.srWaiters ++ [⟨s.srNextWid, n, s.now + t⟩] }) ∧
    (s.srClosed = false → s.srQ.length < n → s.waitersFull = true →
      exec (.rdReq n t) s = .next { s with held := s.held ++ [.rdReq n t] })

/-- R127: with only standalone reads pending, the first close fails every one of them, oldest first, with its reason, and
drops the buffered bytes; a later close changes nothing. -/
def Obligations.CloseFailsPendingReads : Prop :=
  ∀ (s : State) (reason : Option Reason),
    (s.srClosed = true → exec (.close reason) s = .next s) ∧
    (s.srClosed = false → s.exWid = none → s.res = [] → exec (.close reason) s = .next { s with
      srClosed := true
      srReason := reason
      srQ := []
      srWaiters := []
      out := s.out ++ s.srWaiters.map fun w => .rdResp w.wid (.closed reason) })

/-- R128, R147: time never goes back; with only standalone reads pending, the waiters whose deadline has come fail first,
oldest first, then those that can now be served are; no byte is lost and nothing else changes. -/
def Obligations.AdvanceExpiresThenServes : Prop :=
  ∀ (s : State) (t : Nat),
    (t < s.now → exec (.advance t) s = .refused .timeBackwards) ∧
    (s.now ≤ t → s.exWid = none → s.res = [] →
      ∃ served rest results,
        (s.srWaiters.filter fun w => decide (t < w.deadline)) = served ++ rest ∧
        exec (.advance t) s = .next { s with
          now := t
          srWaiters := rest
          srQ := s.srQ.drop (served.map Waiter.size).sum
          out := s.out ++ ((s.srWaiters.filter fun w => decide (w.deadline ≤ t)).map fun w => .rdResp w.wid .timeout) ++
            results.map fun x => .rdResp x.1 x.2 } ∧
        List.Forall₂ (fun w x => ∃ bs, x = (w.wid, RdResult.ok bs) ∧ bs.length = w.size) served results ∧
        deliveredBytes results ++ s.srQ.drop (served.map Waiter.size).sum = s.srQ ∧
        ∀ w tail, rest = w :: tail → (s.srQ.drop (served.map Waiter.size).sum).length < w.size)

/-- R127, R128: in every state, whatever reads are pending and whatever the decoder does with their results, the first
close and an advance of the clock complete, with everything dispatched: after a close no read is pending and no byte
buffered. A close leaves the clock, an advance the closed flag and its reason, and both the configuration, what was
emitted and what is presented or held as they were. -/
def Obligations.CloseAndAdvanceComplete : Prop :=
  ∀ s : State,
    (s.srClosed = false → ∀ reason, ∃ t, exec (.close reason) s = .next t ∧ t.srClosed = true ∧ t.srReason = reason ∧
      t.srQ = [] ∧ t.srWaiters = [] ∧ t.res = [] ∧ Kept { s with srClosed := true, srReason := reason } t) ∧
    (∀ τ, s.now ≤ τ → ∃ t, exec (.advance τ) s = .next t ∧ t.now = τ ∧ t.res = [] ∧ Kept { s with now := τ } t)

/-- R129: the cut of the stream into chunks cannot be observed: two pushes, one after the other, leave the same state,
outputs included, as one push of their concatenation. For the full block, and for the reader alone. -/
def Obligations.ChunkingUnobservable : Prop :=
  ∀ (s : State) (a b : Bytes), s.cfg.legal = true → s.Inv →
    (s.exWid = none ∨ ∃ x, s.srWaiters = [x] ∧ s.exWid = some x.wid) → s.chunkFits (a ++ b) = true →
    ∃ t, exec (.push a) s = .next t ∧ exec (.push b) t = exec (.push (a ++ b)) s

/-! ### The whole machine -/

/-- R29, R160: after reset, of any configuration, every state element holds its reset value. -/
def Obligations.ResetValues : Prop :=
  ∀ c : Config,
    (State.resetWith c).srQ = [] ∧ (State.resetWith c).srWaiters = [] ∧ (State.resetWith c).srClosed = false ∧
    (State.resetWith c).srReason = none ∧ (State.resetWith c).srNextWid = 0 ∧ (State.resetWith c).now = 0 ∧
    (State.resetWith c).exSt = .idle ∧ (State.resetWith c).exAcc = [] ∧ (State.resetWith c).exWid = none ∧
    (State.resetWith c).exFrame = [] ∧ (State.resetWith c).cfg = c

/-- R28 at reset, with the two rules on the outputs. -/
def Obligations.ResetMeetsInvariants : Prop :=
  ∀ c : Config, (State.resetWith c).Inv ∧ (State.resetWith c).serial ∧ (State.resetWith c).answeredOnce

/-- R28: every step keeps the invariants I1 to I7. (The clause that the decoder's waiter has the size of its state's read
is R90's.) -/
def Obligations.StepKeepsInvariants : Prop :=
  ∀ s t : State, s.Inv → step s = .next t → t.Inv

/-- R44, R110, R118: in every run the request frames and the exchange results alternate, so exchanges are serialized and
each frame sent has at most one result, and exactly one once the block is idle. -/
def Obligations.StepKeepsExchangesSerial : Prop :=
  ∀ s t : State, s.serial → step s = .next t → t.serial

/-- R120, R129: no read request is answered twice on the read port, and none that is still pending has been answered. -/
def Obligations.StepKeepsAnsweredOnce : Prop :=
  ∀ s t : State, s.Inv → s.answeredOnce → step s = .next t → t.answeredOnce

/-- R25, R17, R18, R19, R20: no step writes the configuration, moves the clock back, reopens the reader, changes its
reason once closed, or takes back an identifier or an output. -/
def Obligations.StepIsMonotone : Prop :=
  ∀ s t : State, step s = .next t →
    t.cfg = s.cfg ∧ s.now ≤ t.now ∧ s.srNextWid ≤ t.srNextWid ∧ s.out <+: t.out ∧
    (s.srClosed = true → t.srClosed = true ∧ t.srReason = s.srReason)

/-- R17, R20: only `CLOSE` closes the reader and writes its reason, only `ADVANCE` moves the clock, and it sets it to the
time it carries. -/
def Obligations.OnlyCloseClosesOnlyAdvanceMovesTime : Prop :=
  ∀ (i : Instr) (s t : State), exec i s = .next t →
    ((∀ reason, i ≠ .close reason) → t.srClosed = s.srClosed ∧ t.srReason = s.srReason) ∧
    ((∀ τ, i ≠ .advance τ) → t.now = s.now) ∧
    (∀ τ, i = .advance τ → t.now = τ)

/-- R126, R9: every transaction that begins with nothing left to dispatch ends so: it is atomic. -/
def Obligations.TransactionsEndDispatched : Prop :=
  ∀ (i : Instr) (s t : State), s.res = [] → exec i s = .next t → t.res = []

/-- The frame of the transactions that may run the decoder: whatever they deliver, they leave the configuration, the
clock, the closed flag and its reason, and what is presented or held as they were; or they are held themselves. -/
def Obligations.DecodingTransactionsFrame : Prop :=
  ∀ (i : Instr) (s t : State),
    ((∃ status, i = .txDone status) ∨ (∃ chunk, i = .push chunk) ∨ (∃ n τ, i = .rdReq n τ) ∨ ∃ cls, i = RespClass.instr cls) →
    exec i s = .next t → Kept s t ∨ t = { s with held := s.held ++ [i] }

/-- R23: after every step, `EX.wid` names a read exactly while the decoder receives, and that read is pending: it has not been
answered. (From any state that keeps `State.Inv`, with any bound on the waiters: a transaction that would leave the decoder
without its read is held, log entry 4.) -/
def Obligations.StepKeepsDecoderReading : Prop :=
  ∀ s t : State, s.Inv → step s = .next t →
    (t.exWid.isSome = true ↔ t.exSt.receiving = true) ∧
    ∀ w, t.exWid = some w → ∃ x ∈ t.srWaiters, x.wid = w ∧ x.size = t.exSt.readSize

/-- R141: the numeric code of every result. -/
def Obligations.ResultCodes : Prop :=
  (∀ p, (ExResult.ok p).code = 0x00) ∧ (∀ i, (ExResult.err (.noResponse i)).code = 0x01) ∧
  (∀ m, (ExResult.err (.malformedResponse m)).code = 0x02) ∧ (ExResult.err .unsupportedCommand).code = 0x03 ∧
  (∀ e, (ExResult.err (.transportError e)).code = 0x04) ∧ RdResult.timeout.code = 0x10 ∧
  ∀ r, (RdResult.closed r).code = 0x11

/-! ### Responses as they arrive -/

/-- R96, R97, R98, R99: a response that begins with no start marker is decided by that byte, in the one `PUSH` that brings it
while the first byte is awaited, or in the one `TX_DONE` that finds it buffered; the bytes behind it stay buffered, and
nothing else changes. -/
def Obligations.OneByteResponsesDecoded : Prop :=
  ∀ (s : State) (b : Byte) (left : Bytes), s.cfg.legal = true → b ≠ s.cfg.pStart →
    (∀ w, s.awaiting .rxFirst w → s.chunkFits (b :: left) = true →
      exec (.push (b :: left)) s = .next { s with
        srQ := left
        srWaiters := []
        exSt := .idle
        exAcc := []
        exWid := none
        exFrame := []
        out := s.out ++ [.exchResp (firstByteResult s.cfg b)] }) ∧
    (s.exSt = .tx → s.res = [] → s.srClosed = false → s.srQ = b :: left →
      exec (.txDone .ok) s = .next { s with
        srQ := left
        srNextWid := s.srNextWid + 1
        exSt := .idle
        exAcc := []
        exWid := none
        exFrame := []
        out := s.out ++ [.exchResp (firstByteResult s.cfg b)] })

/-- R92 to R95, R90: in the full block, a DATA response that arrives in parts: a part with the start marker and characters, one
with characters, one with the end marker and at most one checksum character, one that completes the checksum, each leave
exactly the state of the rules, with the decoder waiting for its next read or the exchange ended with R95's verdict. -/
def Obligations.ResponseInPartsAccumulates : Prop :=
  ∀ (s : State) (w : Waiter) (h chunk : Bytes), s.cfg.legal = true → s.cfg.pEnd ∉ h → s.chunkFits chunk = true →
    withinBound (s.exAcc.length + h.length) s.cfg.maxRespHex = true →
    (s.awaiting .rxFirst w → s.exAcc = [] → chunk = s.cfg.pStart :: h → exec (.push chunk) s = .next { s with
      srWaiters := [⟨s.srNextWid + h.length, 1, s.now + s.cfg.readTimeout⟩]
      srNextWid := s.srNextWid + h.length + 1
      exSt := .rxAccum
      exAcc := h
      exWid := some (s.srNextWid + h.length) }) ∧
    (s.awaiting .rxAccum w → chunk = h → ∀ k, h.length = k + 1 → exec (.push chunk) s = .next { s with
      srWaiters := [⟨s.srNextWid + k, 1, s.now + s.cfg.readTimeout⟩]
      srNextWid := s.srNextWid + k + 1
      exAcc := s.exAcc ++ h
      exWid := some (s.srNextWid + k) }) ∧
    (∀ tail, s.awaiting .rxAccum w → chunk = h ++ s.cfg.pEnd :: tail → tail.length ≤ 1 →
      exec (.push chunk) s = .next { s with
        srQ := tail
        srWaiters := [⟨s.srNextWid + h.length, 2, s.now + s.cfg.readTimeout⟩]
        srNextWid := s.srNextWid + h.length + 1
        exSt := .rxCksum
        exAcc := s.exAcc ++ h
        exWid := some (s.srNextWid + h.length) }) ∧
    (∀ c1 c2 left, s.awaiting .rxAccum w → chunk = h ++ s.cfg.pEnd :: c1 :: c2 :: left →
      exec (.push chunk) s = .next { s with
        srQ := left
        srWaiters := []
        srNextWid := s.srNextWid + h.length + 1
        exSt := .idle
        exAcc := []
        exWid := none
        exFrame := []
        out := s.out ++ [.exchResp (responseVerdict s.cfg (s.exAcc ++ h) [c1, c2])] }) ∧
    (∀ c1 c2 left, s.awaiting .rxCksum w → s.srQ ++ chunk = c1 :: c2 :: left →
      exec (.push chunk) s = .next { s with
        srQ := left
        srWaiters := []
        exSt := .idle
        exAcc := []
        exWid := none
        exFrame := []
        out := s.out ++ [.exchResp (responseVerdict s.cfg s.exAcc [c1, c2])] })

/-- R112, R122: an operation joins the held ones exactly where it has no step: a request while busy, a push to an open reader
that does not fit and can, a read of an open reader that needs a waiter and finds none, a transaction whose decoder does (log
entry 4); and it changes nothing else. -/
def Obligations.HeldExactlyWhereNoStep : Prop :=
  ∀ (i : Instr) (s : State),
    (exec i s = .next { s with held := s.held ++ [i] } ↔ s.mustHold i = true) ∧
    (holdClass i = some .request → (s.mustHold i = true ↔ s.exSt ≠ .idle)) ∧
    (∀ chunk, i = .push chunk → (s.mustHold i = true ↔ s.srClosed = false ∧
      withinBound (s.srQ.length + chunk.length) s.cfg.queueCap = false ∧
      withinBound chunk.length s.cfg.queueCap = true)) ∧
    (∀ n τ, i = .rdReq n τ → (s.mustHold i = true ↔ s.srClosed = false ∧ s.srQ.length < n ∧ s.waitersFull = true)) ∧
    (∀ status, i = .txDone status → s.mustHold i = true → s.exSt = .tx ∧ s.srClosed = false ∧ s.waitersFull = true)
end

