-- ==== Sys2Proof/Laws/State.lean ====
section
/-! SUPPORT. What each update of the state does to each field, by computation: a later proof rewrites with these
and unfolds no update. -/

namespace Sys2Proof.Machine

/-! ### `emit` -/

@[simp] theorem State.emit_srQ (o : Output) (s : State) : (s.emit o).srQ = s.srQ := rfl
@[simp] theorem State.emit_srWaiters (o : Output) (s : State) : (s.emit o).srWaiters = s.srWaiters := rfl
@[simp] theorem State.emit_srClosed (o : Output) (s : State) : (s.emit o).srClosed = s.srClosed := rfl
@[simp] theorem State.emit_srReason (o : Output) (s : State) : (s.emit o).srReason = s.srReason := rfl
@[simp] theorem State.emit_srNextWid (o : Output) (s : State) : (s.emit o).srNextWid = s.srNextWid := rfl
@[simp] theorem State.emit_now (o : Output) (s : State) : (s.emit o).now = s.now := rfl
@[simp] theorem State.emit_exSt (o : Output) (s : State) : (s.emit o).exSt = s.exSt := rfl
@[simp] theorem State.emit_exAcc (o : Output) (s : State) : (s.emit o).exAcc = s.exAcc := rfl
@[simp] theorem State.emit_exWid (o : Output) (s : State) : (s.emit o).exWid = s.exWid := rfl
@[simp] theorem State.emit_exFrame (o : Output) (s : State) : (s.emit o).exFrame = s.exFrame := rfl
@[simp] theorem State.emit_cfg (o : Output) (s : State) : (s.emit o).cfg = s.cfg := rfl
@[simp] theorem State.emit_res (o : Output) (s : State) : (s.emit o).res = s.res := rfl
@[simp] theorem State.emit_inp (o : Output) (s : State) : (s.emit o).inp = s.inp := rfl
@[simp] theorem State.emit_held (o : Output) (s : State) : (s.emit o).held = s.held := rfl
@[simp] theorem State.emit_out (o : Output) (s : State) : (s.emit o).out = s.out ++ [o] := rfl

/-! ### `hold` -/

@[simp] theorem State.hold_srQ (i : Instr) (s : State) : (s.hold i).srQ = s.srQ := rfl
@[simp] theorem State.hold_srWaiters (i : Instr) (s : State) : (s.hold i).srWaiters = s.srWaiters := rfl
@[simp] theorem State.hold_srClosed (i : Instr) (s : State) : (s.hold i).srClosed = s.srClosed := rfl
@[simp] theorem State.hold_srReason (i : Instr) (s : State) : (s.hold i).srReason = s.srReason := rfl
@[simp] theorem State.hold_srNextWid (i : Instr) (s : State) : (s.hold i).srNextWid = s.srNextWid := rfl
@[simp] theorem State.hold_now (i : Instr) (s : State) : (s.hold i).now = s.now := rfl
@[simp] theorem State.hold_exSt (i : Instr) (s : State) : (s.hold i).exSt = s.exSt := rfl
@[simp] theorem State.hold_exAcc (i : Instr) (s : State) : (s.hold i).exAcc = s.exAcc := rfl
@[simp] theorem State.hold_exWid (i : Instr) (s : State) : (s.hold i).exWid = s.exWid := rfl
@[simp] theorem State.hold_exFrame (i : Instr) (s : State) : (s.hold i).exFrame = s.exFrame := rfl
@[simp] theorem State.hold_cfg (i : Instr) (s : State) : (s.hold i).cfg = s.cfg := rfl
@[simp] theorem State.hold_res (i : Instr) (s : State) : (s.hold i).res = s.res := rfl
@[simp] theorem State.hold_inp (i : Instr) (s : State) : (s.hold i).inp = s.inp := rfl
@[simp] theorem State.hold_held (i : Instr) (s : State) : (s.hold i).held = s.held ++ [i] := rfl
@[simp] theorem State.hold_out (i : Instr) (s : State) : (s.hold i).out = s.out := rfl

/-! ### `deliver` -/

@[simp] theorem State.deliver_srQ (w : Nat) (r : RdResult) (s : State) : (s.deliver w r).srQ = s.srQ := rfl
@[simp] theorem State.deliver_srWaiters (w : Nat) (r : RdResult) (s : State) : (s.deliver w r).srWaiters = s.srWaiters := rfl
@[simp] theorem State.deliver_srClosed (w : Nat) (r : RdResult) (s : State) : (s.deliver w r).srClosed = s.srClosed := rfl
@[simp] theorem State.deliver_srReason (w : Nat) (r : RdResult) (s : State) : (s.deliver w r).srReason = s.srReason := rfl
@[simp] theorem State.deliver_srNextWid (w : Nat) (r : RdResult) (s : State) : (s.deliver w r).srNextWid = s.srNextWid := rfl
@[simp] theorem State.deliver_now (w : Nat) (r : RdResult) (s : State) : (s.deliver w r).now = s.now := rfl
@[simp] theorem State.deliver_exSt (w : Nat) (r : RdResult) (s : State) : (s.deliver w r).exSt = s.exSt := rfl
@[simp] theorem State.deliver_exAcc (w : Nat) (r : RdResult) (s : State) : (s.deliver w r).exAcc = s.exAcc := rfl
@[simp] theorem State.deliver_exWid (w : Nat) (r : RdResult) (s : State) : (s.deliver w r).exWid = s.exWid := rfl
@[simp] theorem State.deliver_exFrame (w : Nat) (r : RdResult) (s : State) : (s.deliver w r).exFrame = s.exFrame := rfl
@[simp] theorem State.deliver_cfg (w : Nat) (r : RdResult) (s : State) : (s.deliver w r).cfg = s.cfg := rfl
@[simp] theorem State.deliver_res (w : Nat) (r : RdResult) (s : State) : (s.deliver w r).res = s.res ++ [(w, r)] := rfl
@[simp] theorem State.deliver_inp (w : Nat) (r : RdResult) (s : State) : (s.deliver w r).inp = s.inp := rfl
@[simp] theorem State.deliver_held (w : Nat) (r : RdResult) (s : State) : (s.deliver w r).held = s.held := rfl
@[simp] theorem State.deliver_out (w : Nat) (r : RdResult) (s : State) : (s.deliver w r).out = s.out := rfl

/-! ### `complete` -/

@[simp] theorem State.complete_srQ (r : ExResult) (s : State) : (s.complete r).srQ = s.srQ := rfl
@[simp] theorem State.complete_srWaiters (r : ExResult) (s : State) : (s.complete r).srWaiters = s.srWaiters := rfl
@[simp] theorem State.complete_srClosed (r : ExResult) (s : State) : (s.complete r).srClosed = s.srClosed := rfl
@[simp] theorem State.complete_srReason (r : ExResult) (s : State) : (s.complete r).srReason = s.srReason := rfl
@[simp] theorem State.complete_srNextWid (r : ExResult) (s : State) : (s.complete r).srNextWid = s.srNextWid := rfl
@[simp] theorem State.complete_now (r : ExResult) (s : State) : (s.complete r).now = s.now := rfl
@[simp] theorem State.complete_exSt (r : ExResult) (s : State) : (s.complete r).exSt = .idle := rfl
@[simp] theorem State.complete_exAcc (r : ExResult) (s : State) : (s.complete r).exAcc = [] := rfl
@[simp] theorem State.complete_exWid (r : ExResult) (s : State) : (s.complete r).exWid = none := rfl
@[simp] theorem State.complete_exFrame (r : ExResult) (s : State) : (s.complete r).exFrame = [] := rfl
@[simp] theorem State.complete_cfg (r : ExResult) (s : State) : (s.complete r).cfg = s.cfg := rfl
@[simp] theorem State.complete_res (r : ExResult) (s : State) : (s.complete r).res = s.res := rfl
@[simp] theorem State.complete_inp (r : ExResult) (s : State) : (s.complete r).inp = s.inp := rfl
@[simp] theorem State.complete_held (r : ExResult) (s : State) : (s.complete r).held = s.held := rfl
@[simp] theorem State.complete_out (r : ExResult) (s : State) : (s.complete r).out = s.out ++ [.exchResp r] := rfl

/-! ### `accept` -/

@[simp] theorem State.accept_srQ (f : Bytes) (s : State) : (s.accept f).srQ = s.srQ := rfl
@[simp] theorem State.accept_srWaiters (f : Bytes) (s : State) : (s.accept f).srWaiters = s.srWaiters := rfl
@[simp] theorem State.accept_srClosed (f : Bytes) (s : State) : (s.accept f).srClosed = s.srClosed := rfl
@[simp] theorem State.accept_srReason (f : Bytes) (s : State) : (s.accept f).srReason = s.srReason := rfl
@[simp] theorem State.accept_srNextWid (f : Bytes) (s : State) : (s.accept f).srNextWid = s.srNextWid := rfl
@[simp] theorem State.accept_now (f : Bytes) (s : State) : (s.accept f).now = s.now := rfl
@[simp] theorem State.accept_exSt (f : Bytes) (s : State) : (s.accept f).exSt = .tx := rfl
@[simp] theorem State.accept_exAcc (f : Bytes) (s : State) : (s.accept f).exAcc = s.exAcc := rfl
@[simp] theorem State.accept_exWid (f : Bytes) (s : State) : (s.accept f).exWid = s.exWid := rfl
@[simp] theorem State.accept_exFrame (f : Bytes) (s : State) : (s.accept f).exFrame = f := rfl
@[simp] theorem State.accept_cfg (f : Bytes) (s : State) : (s.accept f).cfg = s.cfg := rfl
@[simp] theorem State.accept_res (f : Bytes) (s : State) : (s.accept f).res = s.res := rfl
@[simp] theorem State.accept_inp (f : Bytes) (s : State) : (s.accept f).inp = s.inp := rfl
@[simp] theorem State.accept_held (f : Bytes) (s : State) : (s.accept f).held = s.held := rfl
@[simp] theorem State.accept_out (f : Bytes) (s : State) : (s.accept f).out = s.out ++ [.txWrite f] := rfl

/-! ### `failWaiters` -/

@[simp] theorem State.failWaiters_srQ (p : Waiter → Bool) (r : RdResult) (s : State) : (s.failWaiters p r).srQ = s.srQ := rfl
@[simp] theorem State.failWaiters_srWaiters (p : Waiter → Bool) (r : RdResult) (s : State) : (s.failWaiters p r).srWaiters = s.srWaiters.filter fun w => !p w := rfl
@[simp] theorem State.failWaiters_srClosed (p : Waiter → Bool) (r : RdResult) (s : State) : (s.failWaiters p r).srClosed = s.srClosed := rfl
@[simp] theorem State.failWaiters_srReason (p : Waiter → Bool) (r : RdResult) (s : State) : (s.failWaiters p r).srReason = s.srReason := rfl
@[simp] theorem State.failWaiters_srNextWid (p : Waiter → Bool) (r : RdResult) (s : State) : (s.failWaiters p r).srNextWid = s.srNextWid := rfl
@[simp] theorem State.failWaiters_now (p : Waiter → Bool) (r : RdResult) (s : State) : (s.failWaiters p r).now = s.now := rfl
@[simp] theorem State.failWaiters_exSt (p : Waiter → Bool) (r : RdResult) (s : State) : (s.failWaiters p r).exSt = s.exSt := rfl
@[simp] theorem State.failWaiters_exAcc (p : Waiter → Bool) (r : RdResult) (s : State) : (s.failWaiters p r).exAcc = s.exAcc := rfl
@[simp] theorem State.failWaiters_exWid (p : Waiter → Bool) (r : RdResult) (s : State) : (s.failWaiters p r).exWid = s.exWid := rfl
@[simp] theorem State.failWaiters_exFrame (p : Waiter → Bool) (r : RdResult) (s : State) : (s.failWaiters p r).exFrame = s.exFrame := rfl
@[simp] theorem State.failWaiters_cfg (p : Waiter → Bool) (r : RdResult) (s : State) : (s.failWaiters p r).cfg = s.cfg := rfl
@[simp] theorem State.failWaiters_res (p : Waiter → Bool) (r : RdResult) (s : State) : (s.failWaiters p r).res = s.res ++ (s.srWaiters.filter p).map fun w => (w.wid, r) := rfl
@[simp] theorem State.failWaiters_inp (p : Waiter → Bool) (r : RdResult) (s : State) : (s.failWaiters p r).inp = s.inp := rfl
@[simp] theorem State.failWaiters_held (p : Waiter → Bool) (r : RdResult) (s : State) : (s.failWaiters p r).held = s.held := rfl
@[simp] theorem State.failWaiters_out (p : Waiter → Bool) (r : RdResult) (s : State) : (s.failWaiters p r).out = s.out := rfl

/-! ### `raise`, and the response classes that only end the exchange -/

theorem State.raise_eq (e : ExErr) (s : State) : s.raise e = s.complete (.err e) := rfl

theorem State.respond_data (s : State) : State.respond .data s = State.rx 1 { s with exAcc := [], exSt := .rxAccum } := rfl

theorem State.respond_ack (s : State) : State.respond .ack s = s.complete (.ok []) := rfl

theorem State.respond_nak (s : State) : State.respond .nak s = s.complete (.err .unsupportedCommand) := rfl

theorem State.respond_other (info : NoRespInfo) (s : State) :
    State.respond (.other info) s = s.complete (.err (.noResponse info)) := rfl

end Sys2Proof.Machine
end

