-- ==== Sys2Proof/Laws/Ops.lean ====
section
/-! SUPPORT. What each shared operation can do, said once: `read`, `rx` and `satisfy` by their cases, and the
packaged induction over `dispatch`. -/

namespace Sys2Proof.Machine

/-! ### `read` and `rx` -/

theorem read_closed {n t : Nat} {s : State} (h : s.srClosed = true) :
    s.read n t = { s with srNextWid := s.srNextWid + 1, res := s.res ++ [(s.srNextWid, .closed s.srReason)] } := by
  simp [State.read, h, State.deliver]

theorem read_served {n t : Nat} {s : State} (h : s.srClosed = false) (hn : n ≤ s.srQ.length) :
    s.read n t = { s with
      srNextWid := s.srNextWid + 1
      res := s.res ++ [(s.srNextWid, .ok (s.srQ.take n))]
      srQ := s.srQ.drop n } := by
  simp [State.read, h, hn, State.deliver]

theorem read_waits {n t : Nat} {s : State} (h : s.srClosed = false) (hn : s.srQ.length < n) :
    s.read n t = { s with
      srNextWid := s.srNextWid + 1
      srWaiters := s.srWaiters ++ [⟨s.srNextWid, n, s.now + t⟩] } := by
  simp [State.read, h, Nat.not_le.mpr hn]

theorem readHeld_iff {n : Nat} {s : State} :
    s.readHeld n = true ↔ s.srClosed = false ∧ s.srQ.length < n ∧ s.waitersFull = true := by
  simp [State.readHeld, and_assoc]

/-- A read held needs an open reader, too few bytes and a full waiter list. -/
theorem readHeld_eq_false {n : Nat} {s : State}
    (h : s.srClosed = true ∨ n ≤ s.srQ.length ∨ s.waitersFull = false) : s.readHeld n = false := by
  rcases h with h | h | h <;> simp [State.readHeld, h]

theorem rx_closed (n : Nat) {s : State} (h : s.srClosed = true) :
    s.rx n = { s with
      srNextWid := s.srNextWid + 1
      res := s.res ++ [(s.srNextWid, .closed s.srReason)]
      exWid := some s.srNextWid } := by
  rw [State.rx, read_closed h]

theorem rx_served {n : Nat} {s : State} (h : s.srClosed = false) (hn : n ≤ s.srQ.length) :
    s.rx n = { s with
      srNextWid := s.srNextWid + 1
      res := s.res ++ [(s.srNextWid, .ok (s.srQ.take n))]
      srQ := s.srQ.drop n
      exWid := some s.srNextWid } := by
  rw [State.rx, read_served h hn]

theorem rx_waits {n : Nat} {s : State} (h : s.srClosed = false) (hn : s.srQ.length < n) :
    s.rx n = { s with
      srNextWid := s.srNextWid + 1
      srWaiters := s.srWaiters ++ [⟨s.srNextWid, n, s.now + s.cfg.readTimeout⟩]
      exWid := some s.srNextWid } := by
  rw [State.rx, read_waits h hn]

/-- Everything the decoder's read can do: it fails on a closed reader, it is served, or it waits. -/
theorem rx_cases (n : Nat) (s : State) :
    (s.srClosed = true ∧ s.rx n = { s with
      srNextWid := s.srNextWid + 1
      res := s.res ++ [(s.srNextWid, .closed s.srReason)]
      exWid := some s.srNextWid }) ∨
    (s.srClosed = false ∧ n ≤ s.srQ.length ∧ s.rx n = { s with
      srNextWid := s.srNextWid + 1
      res := s.res ++ [(s.srNextWid, .ok (s.srQ.take n))]
      srQ := s.srQ.drop n
      exWid := some s.srNextWid }) ∨
    (s.srClosed = false ∧ s.srQ.length < n ∧ s.rx n = { s with
      srNextWid := s.srNextWid + 1
      srWaiters := s.srWaiters ++ [⟨s.srNextWid, n, s.now + s.cfg.readTimeout⟩]
      exWid := some s.srNextWid }) := by
  by_cases hc : s.srClosed = true
  · exact .inl ⟨hc, rx_closed n hc⟩
  have hc : s.srClosed = false := by simpa using hc
  by_cases hn : n ≤ s.srQ.length
  · exact .inr (.inl ⟨hc, hn, rx_served hc hn⟩)
  have hn' := Nat.lt_of_not_le hn
  exact .inr (.inr ⟨hc, hn', rx_waits hc hn'⟩)

/-! ### `satisfy` -/

/-- R125: the waiters that are served are the oldest, each is given exactly its size from the front of the queue,
and the first one left cannot be served. -/
theorem satisfyFrom_spec (ws : List Waiter) (s : State) :
    ∃ served rest results, ws = served ++ rest ∧
      satisfyFrom ws s = { s with
        srWaiters := rest
        srQ := s.srQ.drop (served.map Waiter.size).sum
        res := s.res ++ results } ∧
      results.map Prod.fst = served.map Waiter.wid ∧
      deliveredBytes results ++ s.srQ.drop (served.map Waiter.size).sum = s.srQ ∧
      List.Forall₂ (fun w x => ∃ bs, x = (w.wid, RdResult.ok bs) ∧ bs.length = w.size) served results ∧
      ∀ w tail, rest = w :: tail → (s.srQ.drop (served.map Waiter.size).sum).length < w.size := by
  induction ws generalizing s with
  | nil => exact ⟨[], [], [], rfl, by simp [satisfyFrom], rfl, by simp [deliveredBytes], .nil, by simp⟩
  | cons w ws ih =>
    by_cases h : w.size ≤ s.srQ.length
    · obtain ⟨served, rest, results, hws, heq, hids, hbytes, hall, hhead⟩ :=
        ih { s.deliver w.wid (.ok (s.srQ.take w.size)) with srQ := s.srQ.drop w.size }
      refine ⟨w :: served, rest, (w.wid, .ok (s.srQ.take w.size)) :: results, by simp [hws], ?_, by simp [hids],
        ?_, .cons ⟨_, rfl, by simp [h]⟩ hall, ?_⟩
      · rw [satisfyFrom, if_pos h, heq]; simp [State.deliver]
      · simp only [List.drop_drop] at hbytes
        simp only [deliveredBytes, List.map_cons, List.sum_cons, List.append_assoc, hbytes, List.take_append_drop]
      · simpa [List.drop_drop] using hhead
    · refine ⟨[], w :: ws, [], rfl, by simp [satisfyFrom, h], rfl, by simp [deliveredBytes], .nil, ?_⟩
      rintro w' tail ⟨rfl, rfl⟩
      simpa using Nat.lt_of_not_le h

theorem satisfy_nil {s : State} (h : s.srWaiters = []) : s.satisfy = s := by
  rw [State.satisfy, h, satisfyFrom, ← h]

/-! ### `dispatch` -/

/-- Induction over the entries a dispatch takes: what holds before, and is kept by taking one entry off the list
and dispatching it, holds after. -/
theorem dispatchLoop_induct {P : State → Prop}
    (hstep : ∀ s w r rest, s.res = (w, r) :: rest → P s → P (State.dispatchEntry w r { s with res := rest })) :
    ∀ fuel s, P s → P (dispatchLoop fuel s) := by
  intro fuel
  induction fuel with
  | zero => exact fun s h => h
  | succ k ih =>
    intro s h
    unfold dispatchLoop
    split
    · exact h
    · exact ih _ (hstep s _ _ _ ‹_› h)

theorem dispatch_induct {P : State → Prop}
    (hstep : ∀ s w r rest, s.res = (w, r) :: rest → P s → P (State.dispatchEntry w r { s with res := rest }))
    (s : State) (h : P s) : P s.dispatch :=
  dispatchLoop_induct hstep _ s h

/-- Everything the decoder's rules can do, by the operation they end in (R92 to R98): a further read with the
accumulator and the state the rule sets, or the end of the exchange. -/
theorem react_cases {r : RdResult} {s t : State} (h : s.react r = some t) :
    s.exSt.receiving = true ∧
    ((∃ acc st bs, r = .ok bs ∧ bs.length = s.exSt.readSize ∧ (s.exSt = .rxFirst ∨ s.exSt = .rxAccum) ∧
        ((st = .rxAccum ∧ (acc = [] ∨ (s.exSt = .rxAccum ∧ s.accFull = false ∧ ∃ b, acc = s.exAcc ++ [b]))) ∨
          (st = .rxCksum ∧ s.exSt = .rxAccum ∧ acc = s.exAcc)) ∧
        t = State.rx st.readSize { s with exAcc := acc, exSt := st }) ∨
      ∃ res, t = s.complete res) := by
  unfold State.react at h
  split at h
  · cases h
  · cases h
  · rename_i hst
    split at h <;> cases h
    rename_i cls hc
    refine ⟨by simp [hst, ExSt.receiving], ?_⟩
    cases cls with
    | data =>
      left
      refine ⟨[], .rxAccum, ?_⟩
      unfold firstClass at hc
      split at hc
      · exact ⟨_, rfl, by simp [hst, ExSt.readSize], .inl hst, .inl ⟨rfl, .inl rfl⟩, rfl⟩
      · cases hc
      · cases hc
      · cases hc
      · cases hc
    | ack => exact .inr ⟨_, rfl⟩
    | nak => exact .inr ⟨_, rfl⟩
    | other info => exact .inr ⟨_, rfl⟩
  · rename_i hst
    refine ⟨by simp [hst, ExSt.receiving], ?_⟩
    split at h <;> cases h
    · rename_i b
      unfold State.accumulate
      split
      · left
        exact ⟨s.exAcc, .rxCksum, [b], rfl, by simp [hst, ExSt.readSize], .inr hst, .inr ⟨rfl, hst, rfl⟩, rfl⟩
      · split
        · exact .inr ⟨_, rfl⟩
        · rename_i hf
          left
          refine ⟨s.exAcc ++ [b], .rxAccum, [b], rfl, by simp [hst, ExSt.readSize], .inr hst,
            .inl ⟨rfl, .inr ⟨hst, by simpa using hf, b, rfl⟩⟩, ?_⟩
          simp [ExSt.readSize, hst]
    · exact .inr ⟨_, rfl⟩
    · exact .inr ⟨_, rfl⟩
  · rename_i hst
    refine ⟨by simp [hst, ExSt.receiving], .inr ?_⟩
    split at h <;> cases h
    · unfold State.verify
      split
      · exact ⟨_, rfl⟩
      · split
        · exact ⟨_, rfl⟩
        · exact ⟨_, rfl⟩
    · exact ⟨_, rfl⟩
    · exact ⟨_, rfl⟩

/-! ### `finish` -/

theorem finish_done {self : Instr} {s t : State} (h : s.neededWaiter t = false) : finish self s t = .next t := by
  simp [finish, h]

theorem finish_held {self : Instr} {s t : State} (h : s.neededWaiter t = true) : finish self s t = .next (s.hold self) := by
  simp [finish, h]

/-- With room for a waiter no read is held. -/
theorem neededWaiter_of_room {s t : State} (h : s.waitersFull = false) : s.neededWaiter t = false := by
  simp [State.neededWaiter, h]

/-- Without a further waiter none was needed. -/
theorem neededWaiter_of_le {s t : State} (h : t.srWaiters.length ≤ s.srWaiters.length) : s.neededWaiter t = false := by
  simp [State.neededWaiter, h]

theorem neededWaiter_iff {s t : State} :
    s.neededWaiter t = true ↔ s.waitersFull = true ∧ s.srWaiters.length < t.srWaiters.length := by
  simp [State.neededWaiter]

end Sys2Proof.Machine
end

