-- ==== Sys2Proof/Laws/Dispatch.lean ====
section
/-! SUPPORT. R126: a dispatch empties its list, whatever the fuel beyond what it needs, so it is the plain recursion
over the list; and what it leaves unchanged. -/

namespace Sys2Proof.Machine

/-! ### The cascade ends -/

/-- What one entry is worth: a delivered result may lead to one further read, a failure ends the exchange. -/
def resultWorth : RdResult → Nat
  | .ok _ => 2
  | .timeout => 1
  | .closed _ => 1

def resWorth (rs : List (Nat × RdResult)) : Nat := (rs.map fun x => resultWorth x.2).sum

@[simp] theorem resWorth_nil : resWorth [] = 0 := rfl

@[simp] theorem resWorth_cons (w : Nat) (r : RdResult) (rs : List (Nat × RdResult)) :
    resWorth ((w, r) :: rs) = resultWorth r + resWorth rs := by simp [resWorth]

@[simp] theorem resWorth_append (xs ys : List (Nat × RdResult)) : resWorth (xs ++ ys) = resWorth xs + resWorth ys := by
  simp [resWorth]

theorem resultWorth_pos (r : RdResult) : 0 < resultWorth r := by cases r <;> simp [resultWorth]

theorem resultWorth_le (r : RdResult) : resultWorth r ≤ 2 := by cases r <;> simp [resultWorth]

theorem resWorth_le (rs : List (Nat × RdResult)) : resWorth rs ≤ 2 * rs.length := by
  induction rs with
  | nil => simp
  | cons x xs ih => have := resultWorth_le x.2; simp only [resWorth_cons x.1 x.2, List.length_cons]; omega

/-- The entries a dispatch can still take are at most this many. -/
def State.cascadeWorth (s : State) : Nat := s.srQ.length + resWorth s.res

theorem readSize_pos (st : ExSt) : 0 < st.readSize := by cases st <;> simp [ExSt.readSize]

theorem cascadeWorth_rx (n : Nat) (hn : 0 < n) (s : State) : (s.rx n).cascadeWorth ≤ s.cascadeWorth + 1 := by
  rcases rx_cases n s with ⟨-, h⟩ | ⟨-, hq, h⟩ | ⟨-, -, h⟩ <;> rw [h] <;>
    simp [State.cascadeWorth, resultWorth] <;> omega

theorem cascadeWorth_dispatchEntry (w : Nat) (r : RdResult) (s : State) :
    (State.dispatchEntry w r s).cascadeWorth < resultWorth r + s.cascadeWorth := by
  have hpos := resultWorth_pos r
  have hemit : (s.emit (.rdResp w r)).cascadeWorth = s.cascadeWorth := rfl
  unfold State.dispatchEntry
  split
  · split
    · rename_i t ht
      rcases (react_cases ht).2 with ⟨acc, st, bs, rfl, -, -, -, rfl⟩ | ⟨res, rfl⟩
      · exact lt_of_le_of_lt (cascadeWorth_rx _ (readSize_pos st) _)
          (by simp only [resultWorth, State.cascadeWorth]; omega)
      · simpa [State.cascadeWorth] using hpos
    · omega
  · omega

theorem cascadeWorth_pop {s : State} {w : Nat} {r : RdResult} {rest : List (Nat × RdResult)}
    (h : s.res = (w, r) :: rest) :
    (State.dispatchEntry w r { s with res := rest }).cascadeWorth < s.cascadeWorth := by
  have := cascadeWorth_dispatchEntry w r { s with res := rest }
  simp only [State.cascadeWorth, h, resWorth_cons] at *
  omega

theorem res_nil_of_cascadeWorth {s : State} (h : s.cascadeWorth = 0) : s.res = [] := by
  cases hr : s.res with
  | nil => rfl
  | cons x xs =>
    have := resultWorth_pos x.2
    rw [State.cascadeWorth, hr, resWorth_cons x.1 x.2] at h
    omega

theorem dispatchLoop_res (fuel : Nat) (s : State) (h : s.cascadeWorth ≤ fuel) : (dispatchLoop fuel s).res = [] := by
  induction fuel generalizing s with
  | zero => exact res_nil_of_cascadeWorth (s := s) (by omega)
  | succ k ih =>
    unfold dispatchLoop
    split
    · assumption
    · rename_i hr
      exact ih _ (by have := cascadeWorth_pop hr; omega)

/-- Fuel beyond the worth of the list changes nothing. -/
theorem dispatchLoop_fuel (f g : Nat) (s : State) (hf : s.cascadeWorth ≤ f) (hg : s.cascadeWorth ≤ g) :
    dispatchLoop f s = dispatchLoop g s := by
  induction f generalizing g s with
  | zero =>
    have hr := res_nil_of_cascadeWorth (s := s) (by omega)
    cases g <;> simp [dispatchLoop, hr]
  | succ f ih =>
    cases g with
    | zero =>
      have hr := res_nil_of_cascadeWorth (s := s) (by omega)
      simp [dispatchLoop, hr]
    | succ g =>
      rw [dispatchLoop, dispatchLoop]
      split
      · rfl
      · rename_i hr
        have := cascadeWorth_pop hr
        exact ih _ _ (by omega) (by omega)

theorem cascadeWorth_le_fuel (s : State) : s.cascadeWorth ≤ s.srQ.length + 2 * s.res.length := by
  have := resWorth_le s.res
  unfold State.cascadeWorth
  omega

/-- R126: the list is empty when the transaction ends. -/
@[simp] theorem dispatch_res (s : State) : s.dispatch.res = [] := dispatchLoop_res _ s (cascadeWorth_le_fuel s)

theorem dispatch_nil {s : State} (h : s.res = []) : s.dispatch = s := by
  unfold State.dispatch dispatchLoop
  split
  · rfl
  · simp [h]

/-- R126: the entry at the front is dispatched, then the rest, with whatever it has added. -/
theorem dispatch_cons {s : State} {w : Nat} {r : RdResult} {rest : List (Nat × RdResult)} (h : s.res = (w, r) :: rest) :
    s.dispatch = State.dispatch (State.dispatchEntry w r { s with res := rest }) := by
  have hpop := cascadeWorth_pop h
  have hle := cascadeWorth_le_fuel s
  have hle' := cascadeWorth_le_fuel (State.dispatchEntry w r { s with res := rest })
  rw [State.dispatch, dispatchLoop_fuel _ (s.cascadeWorth + 1) s hle (by omega), dispatchLoop, h]
  exact dispatchLoop_fuel _ _ _ (by omega) hle'

/-- R126: while the decoder does not read, every result goes out on the read port, in order. -/
theorem dispatch_emits (rs : List (Nat × RdResult)) {s : State} (hw : s.exWid = none) (hr : s.res = rs) :
    s.dispatch = { s with res := [], out := s.out ++ rs.map fun x => .rdResp x.1 x.2 } := by
  induction rs generalizing s with
  | nil =>
    rw [dispatch_nil hr, List.map_nil, List.append_nil]
    exact congrArg (fun r => ({ s with res := r } : State)) hr
  | cons x rs ih =>
    rw [dispatch_cons (w := x.1) (r := x.2) hr, State.dispatchEntry, if_neg (by simp [hw]), ih (by exact hw) (by rfl)]
    simp [State.emit]

/-! ### What a dispatch leaves unchanged -/

theorem Kept.refl (s : State) : Kept s s := ⟨rfl, rfl, rfl, rfl, rfl, rfl, List.prefix_rfl, le_rfl⟩

theorem Kept.trans {s t u : State} (h : Kept s t) (k : Kept t u) : Kept s u :=
  ⟨k.cfg.trans h.cfg, k.now.trans h.now, k.closed.trans h.closed, k.reason.trans h.reason, k.inp.trans h.inp,
    k.held.trans h.held, h.out.trans k.out, h.nextWid.trans k.nextWid⟩

theorem kept_emit (o : Output) (s : State) : Kept s (s.emit o) :=
  ⟨rfl, rfl, rfl, rfl, rfl, rfl, List.prefix_append _ _, le_rfl⟩

theorem kept_complete (r : ExResult) (s : State) : Kept s (s.complete r) :=
  ⟨rfl, rfl, rfl, rfl, rfl, rfl, List.prefix_append _ _, le_rfl⟩

theorem kept_read (n t : Nat) (s : State) : Kept s (s.read n t) := by
  unfold State.read
  split
  · exact ⟨rfl, rfl, rfl, rfl, rfl, rfl, List.prefix_rfl, Nat.le_succ _⟩
  · split
    · exact ⟨rfl, rfl, rfl, rfl, rfl, rfl, List.prefix_rfl, Nat.le_succ _⟩
    · exact ⟨rfl, rfl, rfl, rfl, rfl, rfl, List.prefix_rfl, Nat.le_succ _⟩

theorem kept_rx (n : Nat) (s : State) : Kept s (s.rx n) := by
  have h := kept_read n s.cfg.readTimeout s
  exact ⟨h.cfg, h.now, h.closed, h.reason, h.inp, h.held, h.out, h.nextWid⟩

theorem kept_react {r : RdResult} {s t : State} (h : s.react r = some t) : Kept s t := by
  rcases (react_cases h).2 with ⟨acc, st, -, -, -, -, -, rfl⟩ | ⟨res, rfl⟩
  · have k := kept_rx st.readSize { s with exAcc := acc, exSt := st }
    exact ⟨k.cfg, k.now, k.closed, k.reason, k.inp, k.held, k.out, k.nextWid⟩
  · exact kept_complete res s

theorem kept_dispatchEntry (w : Nat) (r : RdResult) (s : State) : Kept s (State.dispatchEntry w r s) := by
  unfold State.dispatchEntry
  split
  · split
    · have k := kept_react ‹_›
      exact ⟨k.cfg, k.now, k.closed, k.reason, k.inp, k.held, k.out, k.nextWid⟩
    · exact kept_emit _ _
  · exact kept_emit _ _

theorem kept_dispatch (s : State) : Kept s s.dispatch := by
  refine dispatch_induct (P := Kept s) (fun t w r rest _ h => h.trans ?_) s (.refl s)
  have k := kept_dispatchEntry w r { t with res := rest }
  exact ⟨k.cfg, k.now, k.closed, k.reason, k.inp, k.held, k.out, k.nextWid⟩

theorem kept_satisfy (s : State) : Kept s s.satisfy := by
  obtain ⟨_, _, _, -, h, -⟩ := satisfyFrom_spec s.srWaiters s
  rw [State.satisfy, h]
  exact ⟨rfl, rfl, rfl, rfl, rfl, rfl, List.prefix_rfl, le_rfl⟩

end Sys2Proof.Machine
end

