-- ==== Sys2Proof/Laws/Units.lean ====
section
/-! SUPPORT. The small lemmas of the pure units and of the operand formats (spec/42, spec/30). -/

namespace Sys2Proof

/-! ### Nibbles and addresses -/

@[simp] theorem hiNibble_append (h l : Nibble) : hiNibble (h ++ l) = h := by
  revert h l; decide

@[simp] theorem loNibble_append (h l : Nibble) : loNibble (h ++ l) = l := by
  revert h l; decide

@[simp] theorem nibbles_append (v : Byte) : (hiNibble v ++ loNibble v : Byte) = v := by
  revert v; decide

@[simp] theorem addr_append (a : Addr16) : (addrHi a ++ addrLo a : Addr16) = a := by
  apply BitVec.eq_of_getLsbD_eq
  intro i hi
  simp only [addrHi, addrLo, BitVec.getLsbD_append, BitVec.getLsbD_extractLsb']
  by_cases h : i < 8
  · simp [h]
  · simp only [h, decide_false, if_false]
    rw [show 8 + (i - 8) = i by omega]
    simp [show i - 8 < 8 by omega]

@[simp] theorem addrHi_append (h l : Byte) : addrHi (h ++ l) = h := by
  apply BitVec.eq_of_getLsbD_eq
  intro i hi
  simp only [addrHi, BitVec.getLsbD_extractLsb', BitVec.getLsbD_append]
  simp [hi]

@[simp] theorem addrLo_append (h l : Byte) : addrLo (h ++ l) = l := by
  apply BitVec.eq_of_getLsbD_eq
  intro i hi
  simp only [addrLo, BitVec.getLsbD_extractLsb', BitVec.getLsbD_append]
  simp [hi]

/-! ### Hex characters -/

theorem hexUp_mem (n : Nibble) : hexUp n ∈ hexUpTable := by revert n; decide

@[simp] theorem nib_hexUp (n : Nibble) : nib (hexUp n) = some n := by revert n; decide

/-! ### The checksum -/

theorem ckSum_append (a b : Bytes) : ckSum (a ++ b) = ckSum a + ckSum b := by
  simp [ckSum, BitVec.ofNat_add]

@[simp] theorem ckRender_length (v : Byte) : (ckRender v).length = 2 := rfl

/-! ### The hex units -/

@[simp] theorem hexEncode_nil : hexEncode [] = [] := rfl

@[simp] theorem hexEncode_cons (b : Byte) (p : Bytes) :
    hexEncode (b :: p) = hexUp (hiNibble b) :: hexUp (loNibble b) :: hexEncode p := rfl

@[simp] theorem hexEncode_length (p : Bytes) : (hexEncode p).length = 2 * p.length := by
  induction p with
  | nil => rfl
  | cons b p ih => simp [ih]; omega

theorem hexEncode_mem {p : Bytes} {ch : Byte} (h : ch ∈ hexEncode p) : ch ∈ hexUpTable := by
  simp only [hexEncode, List.mem_flatMap, List.mem_cons, List.not_mem_nil, or_false] at h
  obtain ⟨b, -, rfl | rfl⟩ := h <;> exact hexUp_mem _

theorem hexPairs_hexEncode (i : Nat) (p : Bytes) : hexPairs i (hexEncode p) = .ok p := by
  induction p generalizing i with
  | nil => simp [hexPairs]
  | cons b p ih => simp [hexPairs, ih]

theorem hexDecode_hexEncode (p : Bytes) : hexDecode (hexEncode p) = .ok p := by
  simp [hexDecode, hexPairs_hexEncode]

/-! ### Frames -/

theorem encFrame_length (c : Config) (id : Nat) (p : Bytes) : (encFrame c id p).length = 2 * p.length + 5 := by
  simp [encFrame]

theorem encFrame_ne_nil (c : Config) (id : Nat) (p : Bytes) : encFrame c id p ≠ [] := by
  simp [encFrame]

/-- R6: the end marker is no hex character. -/
theorem pEnd_not_mem_hexEncode {c : Config} (hc : c.legal = true) (p : Bytes) : c.pEnd ∉ hexEncode p := by
  intro h
  have := hexEncode_mem h
  simp only [Config.legal, Config.endOutsideHex, Bool.and_eq_true, Bool.not_eq_true', hexAlpha] at hc
  simp_all

theorem legal_maxWaiters {c : Config} (hc : c.legal = true) {m : Nat} (hm : c.maxWaiters = some m) : 1 ≤ m := by
  simp only [Config.legal, Bool.and_eq_true, hm, boundAtLeast, decide_eq_true_eq] at hc
  exact hc.2

end Sys2Proof
end

