-- ==== Sys2Proof/Laws/Decoder.lean ====
section
/-! SUPPORT. The decoder at work in the full block, where no other client reads (R122): a read served at once does what
a waiter served at once does, so a transaction is the plain recursion over the buffered bytes (R126). -/

namespace Sys2Proof.Machine

/-- The waiters are served and the results dispatched: what `PUSH` ends with (R123). -/
def State.settle (s : State) : State := s.satisfy.dispatch

/-- The decoder's read registered as the one waiter, whatever is buffered. -/
def State.await (n : Nat) (s : State) : State :=
  { s with
    srNextWid := s.srNextWid + 1
    srWaiters := [⟨s.srNextWid, n, s.now + s.cfg.readTimeout⟩]
    exWid := some s.srNextWid }

theorem waitersFull_nil {s : State} (hc : s.cfg.legal = true) (hw : s.srWaiters = []) : s.waitersFull = false := by
  unfold State.waitersFull
  split
  · rfl
  · have := legal_maxWaiters hc ‹_›
    simp [hw]; omega

/-- A read that is served at once does what its waiter served at once does. -/
theorem rx_settle (n : Nat) {s : State} (hw : s.srWaiters = []) (hcl : s.srClosed = false) (hr : s.res = []) :
    (s.rx n).dispatch = (s.await n).settle := by
  rw [State.rx]
  by_cases hq : n ≤ s.srQ.length
  · rw [read_served hcl hq]
    simp [State.settle, State.satisfy, State.await, satisfyFrom, hq, State.deliver, hr, hw]
  · have hq' := Nat.lt_of_not_le hq
    rw [read_waits hcl hq']
    simp [State.settle, State.satisfy, State.await, satisfyFrom, hq, hw]

/-- Too few bytes for the oldest waiter: nothing happens. -/
theorem settle_short {s : State} {w : Waiter} {ws : List Waiter} (hw : s.srWaiters = w :: ws)
    (hq : s.srQ.length < w.size) (hr : s.res = []) : s.settle = s := by
  rw [State.settle, State.satisfy, hw, satisfyFrom, if_neg (Nat.not_le.mpr hq), ← hw]
  exact dispatch_nil hr

/-- No waiter: nothing happens. -/
theorem settle_none {s : State} (hw : s.srWaiters = []) (hr : s.res = []) : s.settle = s := by
  rw [State.settle, satisfy_nil hw]
  exact dispatch_nil hr

/-- The decoder's one waiter is given its bytes and the decoder's rule runs. -/
theorem settle_served {s t : State} {w : Waiter} {bs left : Bytes} (hw : s.srWaiters = [w])
    (hwid : s.exWid = some w.wid) (hr : s.res = []) (hq : s.srQ = bs ++ left) (hlen : bs.length = w.size)
    (ht : State.react (.ok bs) { s with srWaiters := [], srQ := left, exWid := none } = some t) :
    s.settle = t.dispatch := by
  have hle : w.size ≤ s.srQ.length := by simp [hq, hlen]
  have htake : s.srQ.take w.size = bs := by rw [hq, ← hlen, List.take_left]
  have hdrop : s.srQ.drop w.size = left := by rw [hq, ← hlen, List.drop_left]
  rw [State.settle, State.satisfy, hw, satisfyFrom, if_pos hle, satisfyFrom, htake, hdrop,
    dispatch_cons (w := w.wid) (r := .ok bs) (rest := []) (by simp [State.deliver, hr])]
  congr 1
  unfold State.dispatchEntry
  rw [if_pos (by simpa [State.deliver] using hwid)]
  have : State.react (.ok bs) { s with srWaiters := [], srQ := left, exWid := none, res := [] } = some t := by
    rw [← ht, ← hr]
  simp only [State.deliver]
  rw [this]

/-- The decoder's state after a rule that asks for a further read. -/
theorem settle_read {s : State} {w : Waiter} {bs left : Bytes} {acc : Bytes} {st : ExSt} (hw : s.srWaiters = [w])
    (hwid : s.exWid = some w.wid) (hr : s.res = []) (hq : s.srQ = bs ++ left) (hlen : bs.length = w.size)
    (hcl : s.srClosed = false)
    (ht : State.react (.ok bs) { s with srWaiters := [], srQ := left, exWid := none } =
      some (State.rx st.readSize { s with srWaiters := [], srQ := left, exWid := none, exAcc := acc, exSt := st })) :
    s.settle = (State.await st.readSize { s with srQ := left, exAcc := acc, exSt := st }).settle := by
  rw [settle_served hw hwid hr hq hlen ht]
  exact rx_settle _ rfl hcl hr

/-- The end of an exchange, with nothing further to do. -/
theorem settle_complete {s : State} {w : Waiter} {bs left : Bytes} {r : ExResult} (hw : s.srWaiters = [w])
    (hwid : s.exWid = some w.wid) (hr : s.res = []) (hq : s.srQ = bs ++ left) (hlen : bs.length = w.size)
    (ht : State.react (.ok bs) { s with srWaiters := [], srQ := left, exWid := none } =
      some (State.complete r { s with srWaiters := [], srQ := left, exWid := none })) :
    s.settle = State.complete r { s with srWaiters := [], srQ := left } := by
  rw [settle_served hw hwid hr hq hlen ht]
  exact dispatch_nil hr

end Sys2Proof.Machine
end

