-- ==== Sys2Proof/Laws/Exec.lean ====
section
/-! SUPPORT. What each operation does where it steps, as one equation for each case; and, said once, everything an
operation that answers a next state can have done. -/

namespace Sys2Proof.Machine

/-! ### One equation a case -/

theorem submit_busy {self : Instr} {req : Request} {s : State} (h : s.exSt ≠ .idle) :
    submit self req s = .next (s.hold self) := if_pos (by simpa [State.busy] using h)

theorem submit_accepted {self : Instr} {req : Request} {s : State} (h : s.exSt = .idle) (hr : refusalOf req = none) :
    submit self req s = .next (s.accept (req.frame s.cfg)) := by
  simp [submit, State.busy, h, hr]

theorem execTxDone_ok {s : State} (h : s.exSt = .tx) :
    execTxDone .ok s = finish (.txDone .ok) s s.startDecoding := if_pos h

theorem execTxDone_err {s : State} (e : TransportErr) (h : s.exSt = .tx) :
    execTxDone (.err e) s = .next (State.dispatch (State.raise (.transportError e) { s with exFrame := [] })) := if_pos h

theorem execPush_fits {s : State} {chunk : Bytes} (h : s.srClosed = false) (hf : s.chunkFits chunk = true) :
    execPush chunk s = .next (State.settle { s with srQ := s.srQ ++ chunk }) := by
  unfold execPush
  rw [if_neg (by simp [h]), if_pos hf]
  rfl

theorem execClose_open {s : State} (reason : Option Reason) (h : s.srClosed = false) :
    execClose reason s = .next (State.dispatch
      { State.failWaiters (fun _ => true) (.closed reason) s with srClosed := true, srReason := reason, srQ := [] }) := by
  unfold execClose
  rw [if_neg (by simp [h])]

theorem execAdvance_forward {s : State} {t : Nat} (h : s.now ≤ t) :
    execAdvance t s = .next (State.settle
      (State.failWaiters (fun w => decide (w.deadline ≤ t)) .timeout { s with now := t })) := by
  unfold execAdvance
  rw [if_neg (Nat.not_lt.mpr h)]
  rfl

theorem execRdReq_issued {s : State} {n t : Nat} (h : s.readHeld n = false) :
    execRdReq n t s = .next (s.read n t).dispatch := by
  simp [execRdReq, h]

theorem firstRead_answered {cls : RespClass} {s : State} (h : s.firstAnswered = true) :
    firstRead cls s = finish cls.instr s (s.answerFirst cls) := if_pos h

/-! ### Everything a next state can be -/

/-- What an operation that answers a next state has done. -/
inductive ExecTo (s : State) : Instr → State → Prop
  /-- it waits (R112, R122) -/
  | held {i} (hi : (holdClass i).isSome = true) : ExecTo s i (s.hold i)
  /-- it has no effect: a push or a second close on a closed reader -/
  | nothing {i} (hi : ∀ τ, i ≠ .advance τ) (hcl : s.srClosed = true) : ExecTo s i s
  /-- a pure unit answers -/
  | answers {i} {o} (hi : ∀ τ, i ≠ .advance τ) (ho : exchangeOrder s.busy [o] = some s.busy) (hw : Output.rdWid o = none) : ExecTo s i (s.emit o)
  /-- a request is accepted (R113) -/
  | accepted {i} {f} (hi : (holdClass i).isSome = true) (hst : s.exSt = .idle) (hf : f ≠ []) : ExecTo s i (s.accept f)
  | sent (hst : s.exSt = .tx) (hn : s.neededWaiter s.startDecoding = false) : ExecTo s (.txDone .ok) s.startDecoding
  | failed {e} (hst : s.exSt = .tx) :
      ExecTo s (.txDone (.err e)) (State.dispatch (State.raise (.transportError e) { s with exFrame := [] }))
  | pushed {chunk} (hcl : s.srClosed = false) (hf : s.chunkFits chunk = true) :
      ExecTo s (.push chunk) (State.settle { s with srQ := s.srQ ++ chunk })
  | closed {reason} (hcl : s.srClosed = false) :
      ExecTo s (.close reason) (State.dispatch
        { State.failWaiters (fun _ => true) (.closed reason) s with srClosed := true, srReason := reason, srQ := [] })
  | advanced {t} (ht : s.now ≤ t) :
      ExecTo s (.advance t) (State.settle
        (State.failWaiters (fun w => decide (w.deadline ≤ t)) .timeout { s with now := t }))
  | read {n t} (hh : s.readHeld n = false) : ExecTo s (.rdReq n t) (s.read n t).dispatch
  | responded (cls : RespClass) (hf : s.firstAnswered = true) (hn : s.neededWaiter (s.answerFirst cls) = false) :
      ExecTo s cls.instr (s.answerFirst cls)

theorem submit_to {self : Instr} {req : Request} {s t : State} (hc : (holdClass self).isSome = true)
    (h : submit self req s = .next t) : ExecTo s self t := by
  by_cases hst : s.exSt = .idle
  · cases hr : refusalOf req with
    | none =>
      rw [submit_accepted hst hr] at h
      cases h
      refine .accepted hc hst ?_
      cases req <;> first | exact encFrame_ne_nil _ _ _ | cases hr
    | some r => simp [submit, State.busy, hst, hr] at h
  · rw [submit_busy hst] at h
    cases h
    exact .held hc

/-- What is finished has been done, with no waiter wanting, or waits. -/
theorem finish_to {self : Instr} {s t u : State} (hc : (holdClass self).isSome = true) (h : finish self s t = .next u)
    (hdone : s.neededWaiter t = false → ExecTo s self t) : ExecTo s self u := by
  cases hn : s.neededWaiter t with
  | true => rw [finish_held hn] at h; cases h; exact .held hc
  | false => rw [finish_done hn] at h; cases h; exact hdone hn

theorem firstRead_to {cls : RespClass} {s t : State} (h : firstRead cls s = .next t) : ExecTo s cls.instr t := by
  by_cases hf : s.firstAnswered = true
  · rw [firstRead_answered hf] at h
    exact finish_to (by cases cls <;> rfl) h (.responded cls hf)
  · simp [firstRead, hf] at h

theorem execTxDone_to {status : TxStatus} {s t : State} (h : execTxDone status s = .next t) : ExecTo s (.txDone status) t := by
  by_cases hst : s.exSt = .tx
  · cases status with
    | ok => rw [execTxDone_ok hst] at h; exact finish_to rfl h (.sent hst)
    | err e => rw [execTxDone_err e hst] at h; cases h; exact .failed hst
  · simp [execTxDone, hst] at h

theorem execPush_to {chunk : Bytes} {s t : State} (h : execPush chunk s = .next t) : ExecTo s (.push chunk) t := by
  by_cases hcl : s.srClosed = true
  · simp only [execPush, hcl, if_true] at h; cases h; exact .nothing (by simp) hcl
  have hcl : s.srClosed = false := by simpa using hcl
  by_cases hf : s.chunkFits chunk = true
  · rw [execPush_fits hcl hf] at h; cases h; exact .pushed hcl hf
  · simp only [execPush, hcl, hf, Bool.false_eq_true, if_false] at h
    split at h <;> cases h
    exact .held rfl

theorem execClose_to {reason : Option Reason} {s t : State} (h : execClose reason s = .next t) :
    ExecTo s (.close reason) t := by
  by_cases hcl : s.srClosed = true
  · simp only [execClose, hcl, if_true] at h; cases h; exact .nothing (by simp) hcl
  have hcl : s.srClosed = false := by simpa using hcl
  rw [execClose_open reason hcl] at h; cases h; exact .closed hcl

theorem execAdvance_to {τ : Nat} {s t : State} (h : execAdvance τ s = .next t) : ExecTo s (.advance τ) t := by
  by_cases ht : s.now ≤ τ
  · rw [execAdvance_forward ht] at h; cases h; exact .advanced ht
  · simp [execAdvance, Nat.lt_of_not_le ht] at h

theorem execRdReq_to {n τ : Nat} {s t : State} (h : execRdReq n τ s = .next t) : ExecTo s (.rdReq n τ) t := by
  by_cases hh : s.readHeld n = true
  · simp only [execRdReq, hh, if_true] at h; cases h; exact .held rfl
  have hh : s.readHeld n = false := by simpa using hh
  rw [execRdReq_issued hh] at h; cases h; exact .read hh

/-- Everything an operation that answers a next state can have done. -/
theorem exec_to {i : Instr} {s t : State} (h : exec i s = .next t) : ExecTo s i t := by
  cases i with
  | byteRead addr count => exact submit_to (req := .byteRead addr count) rfl h
  | byteWrite addr data => exact submit_to (req := .byteWrite addr data) rfl h
  | forceOn addr => exact submit_to (req := .forceOn addr) rfl h
  | forceOff addr => exact submit_to (req := .forceOff addr) rfl h
  | respData => exact firstRead_to (cls := .data) h
  | respAck => exact firstRead_to (cls := .ack) h
  | respNak => exact firstRead_to (cls := .nak) h
  | respOther info => exact firstRead_to (cls := .other info) h
  | exch req => exact submit_to (req := req) rfl h
  | txDone status => exact execTxDone_to h
  | push chunk => exact execPush_to h
  | close reason => exact execClose_to h
  | advance τ => exact execAdvance_to h
  | rdReq n τ => exact execRdReq_to h
  | cksum bs => cases h; exact .answers (by simp) rfl rfl
  | hexenc bs => cases h; exact .answers (by simp) rfl rfl
  | hexdec bs => cases h; exact .answers (by simp) rfl rfl
  | reservedOp9 => cases h
  | reservedOpAB r => cases h
  | reservedOpCF r => cases h

theorem kept_respond (cls : RespClass) (s : State) : Kept s (State.respond cls { s with exWid := none }) := by
  cases cls
  · have k := kept_rx 1 { s with exWid := none, exAcc := [], exSt := .rxAccum }
    exact ⟨k.cfg, k.now, k.closed, k.reason, k.inp, k.held, k.out, k.nextWid⟩
  all_goals exact ⟨rfl, rfl, rfl, rfl, rfl, rfl, List.prefix_append _ _, le_rfl⟩

/-! ### The two transactions that `finish` may hold -/

@[simp] theorem startDecoding_res (s : State) : s.startDecoding.res = [] := dispatch_res _

@[simp] theorem answerFirst_res (cls : RespClass) (s : State) : (s.answerFirst cls).res = [] := dispatch_res _

theorem kept_startDecoding (s : State) : Kept s s.startDecoding := by
  have k := (kept_rx 1 { s with exFrame := [], exSt := .rxFirst }).trans (kept_dispatch _)
  exact ⟨k.cfg, k.now, k.closed, k.reason, k.inp, k.held, k.out, k.nextWid⟩

theorem kept_answerFirst (cls : RespClass) (s : State) : Kept s (s.answerFirst cls) :=
  (kept_respond cls s).trans (kept_dispatch _)

/-! ### One step -/

/-- What a step that answers a next state has done. -/
inductive StepTo (s : State) : State → Prop
  /-- an operation has run; it was taken from the list of results, from the held ones or from the presented ones -/
  | ran {i r inp held t} (hr : s.res = [] → r = [])
      (h : ExecTo { s with res := r, inp := inp, held := held } i t) : StepTo s t
  /-- a transaction under way has gone on -/
  | wentOn (hr : s.res ≠ []) : StepTo s s.dispatch
  /-- a presented operation waits behind an older one -/
  | waits {i inp} (hr : s.res = []) : StepTo s (State.hold i { s with inp := inp })
  /-- nothing is to be done -/
  | idle (hr : s.res = []) : StepTo s s

/-- Everything a step that answers a next state can have done. -/
theorem step_to {s t : State} (h : step s = .next t) : StepTo s t := by
  unfold step fetch at h
  split at h
  swap
  · cases h
  cases hr : s.res with
  | cons x rest =>
    simp only [hr, fetchResult] at h
    cases hf : firstReadInstr x.1 x.2 s with
    | some i => simp only [hf] at h; exact .ran (inp := s.inp) (held := s.held) (by simp [hr]) (exec_to h)
    | none => simp only [hf] at h; cases h; exact .wentOn (by simp [hr])
  | nil =>
    simp only [hr] at h
    cases hp : pickHeld s [] s.held with
    | some x => simp only [hp] at h; exact .ran (r := []) (inp := s.inp) (fun _ => rfl) (exec_to h)
    | none =>
      simp only [hp, fetchInput] at h
      cases hi : s.inp with
      | nil => simp only [hi] at h; cases h; exact .idle hr
      | cons p ps =>
        simp only [hi] at h
        by_cases hch : p.chan = .response
        · simp [hch] at h
        simp only [hch, if_false] at h
        cases hd : decodePacket s.cfg p with
        | error e => simp [hd] at h
        | ok i =>
          simp only [hd] at h
          by_cases hb : s.blocked i = true
          · simp only [hb, if_true] at h; cases h; exact .waits hr
          · simp only [hb, Bool.false_eq_true, if_false] at h
            exact .ran (r := s.res) (held := s.held) id (exec_to h)

end Sys2Proof.Machine
end

