-- ==== Sys2Proof/Laws/Hold.lean ====
section
/-! SUPPORT. What the choice among the held operations picks (R112, R122; log entry 3), said once. -/

namespace Sys2Proof.Machine

/-- A held operation that cannot go is passed over. -/
theorem pickHeld_pass {s : State} {seen rest : List Instr} {i : Instr} (h : s.cannotGo seen i) :
    pickHeld s seen (i :: rest) = pickHeld s (seen ++ [i]) rest := by
  have : ¬((!s.mustHold i && !(seen.any fun j => holdClass j == holdClass i)) = true) := by
    rcases h with h | ⟨j, hj, hc⟩
    · simp [h]
    · simp only [Bool.and_eq_true, Bool.not_eq_true', List.any_eq_false, not_and]
      exact fun _ hn => hn j hj (by simp [hc])
  rw [pickHeld, if_neg this]

/-- The first that can go is picked. -/
theorem pickHeld_take {s : State} {seen rest : List Instr} {i : Instr} (h : ¬s.cannotGo seen i) :
    pickHeld s seen (i :: rest) = some (i, seen ++ rest) := by
  have hm : s.mustHold i = false := by
    by_contra hm
    exact h (.inl (by simpa using hm))
  have hs : (seen.any fun j => holdClass j == holdClass i) = false := by
    rw [List.any_eq_false]
    exact fun j hj hc => h (.inr ⟨j, hj, by simpa using hc⟩)
  rw [pickHeld, if_pos (by simp [hm, hs])]

theorem pickHeld_skip {s : State} (pre : List Instr) {seen rest : List Instr}
    (h : ∀ a i b, pre = a ++ i :: b → s.cannotGo (seen ++ a) i) :
    pickHeld s seen (pre ++ rest) = pickHeld s (seen ++ pre) rest := by
  induction pre generalizing seen with
  | nil => simp
  | cons i pre ih =>
    rw [List.cons_append, pickHeld_pass (by simpa using h [] i pre rfl), ih, List.append_assoc]
    · rfl
    · intro a j b e
      have := h (i :: a) j b (by rw [e, List.cons_append])
      rwa [List.append_assoc]

/-- Where none of the held operations goes, none is picked. -/
theorem pickHeld_eq_none {s : State} {held : List Instr} (h : s.noneGoes held) : pickHeld s [] held = none := by
  have := pickHeld_skip (s := s) held (seen := []) (rest := []) h
  simpa [pickHeld] using this

/-- Where none before `i` goes and `i` does, it is picked and the others are left in their order. -/
theorem pickHeld_eq_some {s : State} {pre post : List Instr} {i : Instr} (hp : s.noneGoes pre) (hi : ¬s.cannotGo pre i) :
    pickHeld s [] (pre ++ i :: post) = some (i, pre ++ post) := by
  rw [pickHeld_skip (seen := []) pre hp]
  exact pickHeld_take hi

/-- An operation waits behind an older held one of its class. -/
theorem blocked_iff {s : State} {i : Instr} :
    s.blocked i = true ↔ holdClass i ≠ none ∧ ∃ j ∈ s.held, holdClass j = holdClass i := by
  simp [State.blocked, Option.isSome_iff_ne_none]

/-- A single held operation. -/
theorem noneGoes_singleton {s : State} {i : Instr} (h : s.mustHold i = true) : s.noneGoes [i] := by
  rintro pre j post e
  cases pre with
  | nil => cases e; exact .inl h
  | cons x xs => simp at e

theorem noneGoes_nil (s : State) : s.noneGoes [] := by
  rintro pre j post e
  simp at e

end Sys2Proof.Machine
end

