-- ==== Sys2Proof/Laws/Invariant.lean ====
section
/-! SUPPORT. The invariants of R28 inside a transaction, where results are still to be dispatched, and how each shared
operation keeps them. -/

namespace Sys2Proof.Machine

/-- The reads that have an identifier: the pending ones and those whose result is still to be dispatched. -/
def State.openWids (s : State) : List Nat := s.srWaiters.map Waiter.wid ++ s.res.map Prod.fst

/-- `State.Inv` at any point of a transaction, but for the clauses that an operation may break and the next one mend, I2 and
the second half of I4, and for the bound on the waiters. -/
structure State.Mid (s : State) : Prop where
  closedEmpty : s.srClosed = true → s.srWaiters = [] ∧ s.srQ = []
  ids : s.openWids.Nodup
  fresh : ∀ w ∈ s.openWids, w < s.srNextWid
  readPending : ∀ w, s.exWid = some w → s.exSt.receiving = true ∧
    ((∃ x ∈ s.srWaiters, x.wid = w ∧ x.size = s.exSt.readSize) ∨
      ∃ r, (w, r) ∈ s.res ∧ ∀ bs, r = .ok bs → bs.length = s.exSt.readSize)
  accEmpty : s.exSt ≠ .rxAccum → s.exSt ≠ .rxCksum → s.exAcc = []
  frameInTx : s.exSt = .tx ↔ s.exFrame ≠ []
  queueBound : withinBound s.srQ.length s.cfg.queueCap = true
  accBound : withinBound s.exAcc.length s.cfg.maxRespHex = true

/-- I2 -/
def State.headShort (s : State) : Prop := ∀ w ws, s.srWaiters = w :: ws → s.srQ.length < w.size

/-- I4, second half -/
def State.reads (s : State) : Prop := s.exSt.receiving = true → s.exWid.isSome = true

/-- I7's bound on the waiters inside a transaction: it holds, and an answered read of the decoder has left the place its
next one needs. -/
structure State.Roomy (s : State) : Prop where
  bound : withinBound s.srWaiters.length s.cfg.maxWaiters = true
  room : ∀ w, s.exWid = some w → w ∉ s.srWaiters.map Waiter.wid →
    withinBound (s.srWaiters.length + 1) s.cfg.maxWaiters = true

theorem State.Inv.mid {s : State} (h : s.Inv) : s.Mid where
  closedEmpty := h.closedEmpty
  ids := by simpa [State.openWids, h.settled] using h.widsDistinct
  fresh := by
    intro w hw
    simp only [State.openWids, h.settled, List.map_nil, List.append_nil, List.mem_map] at hw
    obtain ⟨x, hx, rfl⟩ := hw
    exact h.widsFresh x hx
  readPending w hw := ⟨(h.readPending w hw).1, .inl (h.readPending w hw).2⟩
  accEmpty := h.accEmpty
  frameInTx := h.frameInTx
  queueBound := h.queueBound
  accBound := h.accBound

theorem State.Inv.roomy {s : State} (h : s.Inv) : s.Roomy where
  bound := h.waiterBound
  room w hw hn := by
    obtain ⟨x, hx, rfl, -⟩ := (h.readPending w hw).2
    exact absurd (List.mem_map_of_mem hx) hn

/-- Once nothing is left to dispatch, what holds inside a transaction is what holds between two. -/
theorem State.Mid.inv {s : State} (h : s.Mid) (hs : s.headShort) (hrd : s.reads)
    (hb : withinBound s.srWaiters.length s.cfg.maxWaiters = true) (hr : s.res = []) : s.Inv where
  closedEmpty := h.closedEmpty
  headWaits := hs
  widsDistinct := by simpa [State.openWids, hr] using h.ids
  widsFresh w hw := h.fresh _ (by simp only [State.openWids, List.mem_append, List.mem_map]; exact .inl ⟨w, hw, rfl⟩)
  readPending w hw := by
    obtain ⟨h1, h2 | ⟨r, h2, -⟩⟩ := h.readPending w hw
    · exact ⟨h1, h2⟩
    · simp [hr] at h2
  receivingReads := hrd
  accEmpty := h.accEmpty
  frameInTx := h.frameInTx
  queueBound := h.queueBound
  waiterBound := hb
  accBound := h.accBound
  settled := hr

theorem withinBound_mono {m n : Nat} {b : Option Nat} (h : m ≤ n) (hb : withinBound n b = true) : withinBound m b = true := by
  cases b with
  | none => rfl
  | some k => simp only [withinBound, decide_eq_true_eq] at *; omega

/-- Room for one more where a bound is not reached. -/
theorem withinBound_succ {n : Nat} {b : Option Nat} (h : ∀ k, b = some k → n < k) : withinBound (n + 1) b = true := by
  cases b with
  | none => rfl
  | some k => simpa [withinBound] using h k rfl

theorem waitersFull_eq_false {s : State} (h : s.waitersFull = false) :
    withinBound (s.srWaiters.length + 1) s.cfg.maxWaiters = true := by
  refine withinBound_succ fun k hk => ?_
  simpa [State.waitersFull, hk] using h

theorem accFull_eq_false {s : State} (h : s.accFull = false) :
    withinBound (s.exAcc.length + 1) s.cfg.maxRespHex = true := by
  refine withinBound_succ fun k hk => ?_
  simpa [State.accFull, hk] using h

/-! ### A further identifier -/

theorem openWids_fresh {s : State} (h : s.Mid) : s.srNextWid ∉ s.openWids := fun hm => absurd (h.fresh _ hm) (lt_irrefl _)

theorem nodup_insert {α : Type} {a b : List α} {x : α} (h : (a ++ b).Nodup) (hx : x ∉ a ++ b) :
    (a ++ (b ++ [x])).Nodup ∧ (a ++ [x] ++ b).Nodup := by
  have h1 : (x :: (a ++ b)).Nodup := List.nodup_cons.mpr ⟨hx, h⟩
  constructor
  · refine (List.Perm.nodup_iff ?_).mp h1
    rw [← List.append_assoc]
    exact (List.perm_append_singleton x (a ++ b)).symm
  · refine (List.Perm.nodup_iff ?_).mp h1
    rw [List.append_assoc]
    exact List.perm_middle.symm

/-! ### `rx`, `read` and the end of an exchange -/

/-- The decoder's read: the one way `EX.wid` is set (R23). -/
theorem State.Mid.rx {s : State} (h : s.Mid) (hs : s.headShort) (hst : s.exSt.receiving = true) :
    (s.rx s.exSt.readSize).Mid ∧ (s.rx s.exSt.readSize).headShort ∧ (s.rx s.exSt.readSize).reads := by
  obtain ⟨hn1, hn2⟩ := nodup_insert h.ids (openWids_fresh h)
  have hf1 : ∀ w ∈ s.srWaiters.map Waiter.wid ++ (s.res.map Prod.fst ++ [s.srNextWid]), w < s.srNextWid + 1 := by
    intro w hw
    rw [← List.append_assoc, List.mem_append, List.mem_singleton] at hw
    rcases hw with hw | rfl
    · exact Nat.lt_succ_of_lt (h.fresh w hw)
    · exact Nat.lt_succ_self _
  rcases rx_cases s.exSt.readSize s with ⟨hcl, e⟩ | ⟨hcl, hq, e⟩ | ⟨hcl, hq, e⟩ <;> rw [e]
  · refine ⟨⟨h.closedEmpty, by simpa [State.openWids] using hn1, by simpa [State.openWids] using hf1, fun w hw => ⟨hst, .inr ?_⟩,
      h.accEmpty, h.frameInTx, h.queueBound, h.accBound⟩, hs, fun _ => rfl⟩
    cases hw
    exact ⟨_, List.mem_append_right _ (List.mem_singleton.mpr rfl), by simp⟩
  · refine ⟨⟨fun hc => (by simp [hcl] at hc), by simpa [State.openWids] using hn1, by simpa [State.openWids] using hf1,
      fun w hw => ⟨hst, .inr ?_⟩, h.accEmpty, h.frameInTx, withinBound_mono (by simp) h.queueBound, h.accBound⟩,
      fun w ws hws => ?_, fun _ => rfl⟩
    · cases hw
      refine ⟨_, List.mem_append_right _ (List.mem_singleton.mpr rfl), ?_⟩
      rintro bs ⟨⟩
      simp [hq]
    · have := hs w ws hws
      simp only [List.length_drop]
      omega
  · refine ⟨⟨fun hc => (by simp [hcl] at hc), by simpa [State.openWids] using hn2, ?_, fun w hw => ⟨hst, .inl ?_⟩,
      h.accEmpty, h.frameInTx, h.queueBound, h.accBound⟩, fun w ws hws => ?_, fun _ => rfl⟩
    · intro w hw
      simp only [State.openWids, List.map_append, List.map_cons, List.map_nil, List.append_assoc, List.mem_append,
        List.mem_singleton] at hw
      refine hf1 w ?_
      simp only [List.mem_append, List.mem_singleton]
      tauto
    · cases hw
      exact ⟨_, List.mem_append_right _ (List.mem_singleton.mpr rfl), rfl, rfl⟩
    · cases hl : s.srWaiters with
      | nil => simp only [hl, List.nil_append, List.cons.injEq] at hws; obtain ⟨rfl, -⟩ := hws; exact hq
      | cons x xs => simp only [hl, List.cons_append, List.cons.injEq] at hws; obtain ⟨rfl, -⟩ := hws; exact hs _ _ hl

/-- The decoder's read, where one more waiter fits. -/
theorem roomy_rx (n : Nat) {s : State} (h : withinBound (s.srWaiters.length + 1) s.cfg.maxWaiters = true) :
    (s.rx n).Roomy := by
  rcases rx_cases n s with ⟨-, e⟩ | ⟨-, -, e⟩ | ⟨-, -, e⟩ <;> rw [e]
  · exact ⟨withinBound_mono (Nat.le_succ _) h, fun _ _ _ => h⟩
  · exact ⟨withinBound_mono (Nat.le_succ _) h, fun _ _ _ => h⟩
  · refine ⟨by simpa using h, fun w hw hn => ?_⟩
    cases hw
    simp at hn

theorem State.Mid.complete {s : State} (h : s.Mid) (hs : s.headShort) (r : ExResult) :
    (s.complete r).Mid ∧ (s.complete r).headShort ∧ (s.complete r).reads :=
  ⟨⟨h.closedEmpty, h.ids, h.fresh, fun w hw => (by cases hw), fun _ _ => rfl,
    by simp, h.queueBound, withinBound_mono (Nat.zero_le _) h.accBound⟩, hs, fun hr => by cases hr⟩

theorem State.Roomy.complete {s : State} (h : s.Roomy) (r : ExResult) : (s.complete r).Roomy :=
  ⟨h.bound, fun w hw => by cases hw⟩

/-- A standalone read (R124). -/
theorem State.Mid.read {s : State} (h : s.Mid) (hs : s.headShort) (hrd : s.reads) (n t : Nat) :
    (s.read n t).Mid ∧ (s.read n t).headShort ∧ (s.read n t).reads := by
  obtain ⟨hn1, hn2⟩ := nodup_insert h.ids (openWids_fresh h)
  have hf1 : ∀ w ∈ s.srWaiters.map Waiter.wid ++ (s.res.map Prod.fst ++ [s.srNextWid]), w < s.srNextWid + 1 := by
    intro w hw
    rw [← List.append_assoc, List.mem_append, List.mem_singleton] at hw
    rcases hw with hw | rfl
    · exact Nat.lt_succ_of_lt (h.fresh w hw)
    · exact Nat.lt_succ_self _
  by_cases hcl : s.srClosed = true
  · rw [read_closed hcl]
    refine ⟨⟨h.closedEmpty, by simpa [State.openWids] using hn1, by simpa [State.openWids] using hf1, fun w hw => ?_,
      h.accEmpty, h.frameInTx, h.queueBound, h.accBound⟩, hs, hrd⟩
    obtain ⟨h1, h2 | ⟨r, h2, h3⟩⟩ := h.readPending w hw
    · exact ⟨h1, .inl h2⟩
    · exact ⟨h1, .inr ⟨r, List.mem_append_left _ h2, h3⟩⟩
  have hcl : s.srClosed = false := by simpa using hcl
  by_cases hq : n ≤ s.srQ.length
  · rw [read_served hcl hq]
    refine ⟨⟨fun hc => (by simp [hcl] at hc), by simpa [State.openWids] using hn1, by simpa [State.openWids] using hf1,
      fun w hw => ?_, h.accEmpty, h.frameInTx, withinBound_mono (by simp) h.queueBound, h.accBound⟩,
      fun w ws hws => ?_, hrd⟩
    · obtain ⟨h1, h2 | ⟨r, h2, h3⟩⟩ := h.readPending w hw
      · exact ⟨h1, .inl h2⟩
      · exact ⟨h1, .inr ⟨r, List.mem_append_left _ h2, h3⟩⟩
    · have := hs w ws hws
      simp only [List.length_drop]
      omega
  have hq := Nat.lt_of_not_le hq
  rw [read_waits hcl hq]
  refine ⟨⟨fun hc => (by simp [hcl] at hc), by simpa [State.openWids] using hn2, ?_, fun w hw => ?_, h.accEmpty,
    h.frameInTx, h.queueBound, h.accBound⟩, fun w ws hws => ?_, hrd⟩
  · intro w hw
    simp only [State.openWids, List.map_append, List.map_cons, List.map_nil, List.append_assoc, List.mem_append,
      List.mem_singleton] at hw
    refine hf1 w ?_
    simp only [List.mem_append, List.mem_singleton]
    tauto
  · obtain ⟨h1, ⟨x, h2, h3⟩ | h2⟩ := h.readPending w hw
    · exact ⟨h1, .inl ⟨x, List.mem_append_left _ h2, h3⟩⟩
    · exact ⟨h1, .inr h2⟩
  · cases hl : s.srWaiters with
    | nil => simp only [hl, List.nil_append, List.cons.injEq] at hws; obtain ⟨rfl, -⟩ := hws; exact hq
    | cons x xs => simp only [hl, List.cons_append, List.cons.injEq] at hws; obtain ⟨rfl, -⟩ := hws; exact hs _ _ hl

/-- A standalone read that is not held leaves the bound kept. -/
theorem State.Roomy.read {s : State} (h : s.Roomy) (hp : ∀ w, s.exWid = some w → w ∈ s.srWaiters.map Waiter.wid) (n t : Nat)
    (hh : s.readHeld n = false) : (s.read n t).Roomy := by
  by_cases hcl : s.srClosed = true
  · rw [read_closed hcl]; exact ⟨h.bound, h.room⟩
  have hcl : s.srClosed = false := by simpa using hcl
  by_cases hq : n ≤ s.srQ.length
  · rw [read_served hcl hq]; exact ⟨h.bound, h.room⟩
  have hq := Nat.lt_of_not_le hq
  have hf : s.waitersFull = false := by
    by_contra hf
    simp [readHeld_iff.mpr ⟨hcl, hq, by simpa using hf⟩] at hh
  rw [read_waits hcl hq]
  refine ⟨by simpa using waitersFull_eq_false hf, fun w hw hn => absurd ?_ hn⟩
  rw [List.map_append]
  exact List.mem_append_left _ (hp w hw)

/-! ### Dispatch -/

/-- The decoder has a rule for every result of the length its read asked for (R92 to R98). -/
theorem react_isSome {r : RdResult} {s : State} (hst : s.exSt.receiving = true)
    (hr : ∀ bs, r = .ok bs → bs.length = s.exSt.readSize) : ∃ t, s.react r = some t := by
  unfold State.react
  cases hs : s.exSt with
  | idle => simp [hs, ExSt.receiving] at hst
  | tx => simp [hs, ExSt.receiving] at hst
  | rxFirst =>
    cases r with
    | ok bs =>
      have := hr bs rfl
      obtain ⟨b, rfl⟩ := List.length_eq_one_iff.mp (by simpa [hs, ExSt.readSize] using this)
      simp [firstClass]
    | timeout => simp [firstClass]
    | closed reason => simp [firstClass]
  | rxAccum =>
    cases r with
    | ok bs =>
      have := hr bs rfl
      obtain ⟨b, rfl⟩ := List.length_eq_one_iff.mp (by simpa [hs, ExSt.readSize] using this)
      simp
    | timeout => simp
    | closed reason => simp
  | rxCksum =>
    cases r with
    | ok bs =>
      have := hr bs rfl
      obtain ⟨a, b, rfl⟩ := List.length_eq_two.mp (by simpa [hs, ExSt.readSize] using this)
      simp
    | timeout => simp
    | closed reason => simp

/-- A result that is taken off the list leaves the other identifiers. -/
theorem openWids_pop {s : State} {w : Nat} {r : RdResult} {rest : List (Nat × RdResult)} (hr : s.res = (w, r) :: rest) :
    s.openWids.Perm (w :: ({ s with res := rest } : State).openWids) := by
  simp only [State.openWids, hr, List.map_cons]
  exact List.perm_middle

/-- A result not meant for the decoder, or one whose read it no longer waits for, is taken off the list. -/
theorem State.Mid.pop {s : State} (h : s.Mid) {w : Nat} {r : RdResult} {rest : List (Nat × RdResult)}
    (hr : s.res = (w, r) :: rest) (hw : s.exWid ≠ some w) : ({ s with res := rest } : State).Mid := by
  have hp := openWids_pop hr
  refine ⟨h.closedEmpty, ((hp.nodup_iff.mp h.ids)).of_cons, fun x hx => h.fresh x (hp.mem_iff.mpr (.tail _ hx)), fun x hx => ?_,
    h.accEmpty, h.frameInTx, h.queueBound, h.accBound⟩
  obtain ⟨h1, h2 | ⟨r', h2, h3⟩⟩ := h.readPending x hx
  · exact ⟨h1, .inl h2⟩
  · refine ⟨h1, .inr ⟨r', ?_, h3⟩⟩
    rw [hr, List.mem_cons] at h2
    rcases h2 with h2 | h2
    · cases h2; exact absurd hx hw
    · exact h2

theorem State.Mid.emit {s : State} (h : s.Mid) (o : Output) : (s.emit o).Mid :=
  ⟨h.closedEmpty, h.ids, h.fresh, h.readPending, h.accEmpty, h.frameInTx, h.queueBound, h.accBound⟩

/-- The decoder no longer waits: its read is cleared, and its state and accumulator are what its rule makes them. -/
theorem State.Mid.clear {s : State} (h : s.Mid) {acc : Bytes} {st : ExSt}
    (hacc : st = .rxAccum ∨ st = .rxCksum) (htx : s.exSt ≠ .tx) (hb : withinBound acc.length s.cfg.maxRespHex = true) :
    ({ s with exWid := none, exAcc := acc, exSt := st } : State).Mid := by
  have hfr : s.exFrame = [] := by
    by_contra hf
    exact htx (h.frameInTx.mpr hf)
  refine ⟨h.closedEmpty, h.ids, h.fresh, fun w hw => (by cases hw), fun h1 h2 => ?_, ?_, h.queueBound, hb⟩
  · rcases hacc with rfl | rfl
    · exact absurd rfl h1
    · exact absurd rfl h2
  · rcases hacc with rfl | rfl <;> simp [hfr]

/-- One entry of the list keeps the invariants (R126). -/
theorem State.Mid.dispatchEntry {s : State} (h : s.Mid) (hs : s.headShort) (hrd : s.reads) {w : Nat} {r : RdResult}
    {rest : List (Nat × RdResult)} (hr : s.res = (w, r) :: rest) :
    (State.dispatchEntry w r { s with res := rest }).Mid ∧ (State.dispatchEntry w r { s with res := rest }).headShort ∧
      (State.dispatchEntry w r { s with res := rest }).reads := by
  by_cases hw : s.exWid = some w
  swap
  · rw [State.dispatchEntry, if_neg hw]
    exact ⟨(h.pop hr hw).emit _, hs, hrd⟩
  have hp := openWids_pop hr
  have hnd := List.nodup_cons.mp (hp.nodup_iff.mp h.ids)
  obtain ⟨hrec, hres⟩ := h.readPending w hw
  have hlen : ∀ bs, r = .ok bs → bs.length = s.exSt.readSize := by
    rcases hres with ⟨x, hx, rfl, -⟩ | ⟨r', hr', hl⟩
    · exact absurd (List.mem_append_left _ (List.mem_map_of_mem hx)) hnd.1
    · rw [hr, List.mem_cons] at hr'
      rcases hr' with hr' | hr'
      · cases hr'; exact hl
      · exact absurd (List.mem_append_right _ (List.mem_map_of_mem (f := Prod.fst) hr')) hnd.1
  have h0 : ({ s with res := rest, exWid := none } : State).Mid :=
    ⟨h.closedEmpty, hnd.2, fun x hx => h.fresh x (hp.mem_iff.mpr (.tail _ hx)), fun x hx => (by cases hx),
      h.accEmpty, h.frameInTx, h.queueBound, h.accBound⟩
  obtain ⟨t, ht⟩ := react_isSome (s := { s with res := rest, exWid := none }) hrec hlen
  have he : State.dispatchEntry w r { s with res := rest } = t := by simp [State.dispatchEntry, hw, ht]
  rw [he]
  have htx : s.exSt ≠ .tx := fun e => by simp [e, ExSt.receiving] at hrec
  rcases (react_cases ht).2 with ⟨acc, st, bs, -, -, -, hacc, rfl⟩ | ⟨res, rfl⟩
  · have hb : withinBound acc.length s.cfg.maxRespHex = true := by
      rcases hacc with ⟨-, rfl | ⟨-, hf, b, rfl⟩⟩ | ⟨-, -, rfl⟩
      · exact withinBound_mono (Nat.zero_le _) h.accBound
      · simpa using accFull_eq_false hf
      · exact h.accBound
    have hst : st = .rxAccum ∨ st = .rxCksum := by
      rcases hacc with ⟨e, -⟩ | ⟨e, -⟩
      · exact .inl e
      · exact .inr e
    exact (h0.clear hst htx hb).rx hs (by rcases hst with rfl | rfl <;> rfl)
  · exact h0.complete hs res

/-- One entry keeps the bound on the waiters: the read it answers has left a place for the next. -/
theorem State.Roomy.dispatchEntry {s : State} (h : s.Roomy) (hm : s.Mid) {w : Nat} {r : RdResult}
    {rest : List (Nat × RdResult)} (hr : s.res = (w, r) :: rest) : (State.dispatchEntry w r { s with res := rest }).Roomy := by
  unfold State.dispatchEntry
  split
  swap
  · exact ⟨h.bound, h.room⟩
  rename_i hw
  have hn : w ∉ s.srWaiters.map Waiter.wid := fun hm' =>
    (List.nodup_cons.mp ((openWids_pop hr).nodup_iff.mp hm.ids)).1 (List.mem_append_left _ hm')
  split
  · rename_i t ht
    rcases (react_cases ht).2 with ⟨acc, st, bs, -, -, -, -, rfl⟩ | ⟨res, rfl⟩
    · exact roomy_rx _ (h.room w hw hn)
    · exact ⟨h.bound, fun w hw => by cases hw⟩
  · exact ⟨h.bound, h.room⟩

theorem State.Mid.dispatch {s : State} (h : s.Mid) (hs : s.headShort) (hrd : s.reads) :
    s.dispatch.Mid ∧ s.dispatch.headShort ∧ s.dispatch.reads :=
  dispatch_induct (P := fun t => t.Mid ∧ t.headShort ∧ t.reads)
    (fun _ _ _ _ hr ht => ht.1.dispatchEntry ht.2.1 ht.2.2 hr) s ⟨h, hs, hrd⟩

theorem State.Roomy.dispatch {s : State} (h : s.Roomy) (hm : s.Mid) (hs : s.headShort) (hrd : s.reads) : s.dispatch.Roomy :=
  (dispatch_induct (P := fun t => (t.Mid ∧ t.headShort ∧ t.reads) ∧ t.Roomy)
    (fun _ _ _ _ hr ht => ⟨ht.1.1.dispatchEntry ht.1.2.1 ht.1.2.2 hr, ht.2.dispatchEntry ht.1.1 hr⟩) s
    ⟨⟨hm, hs, hrd⟩, h⟩).2

/-! ### Serving and failing waiters -/

/-- R125: the waiters are served, and I2 holds again. -/
theorem State.Mid.satisfy {s : State} (h : s.Mid) : s.satisfy.Mid ∧ s.satisfy.headShort := by
  obtain ⟨served, rest, results, hws, heq, hids, -, hall, hhead⟩ := satisfyFrom_spec s.srWaiters s
  have hp : s.openWids.Perm ({ s with
      srWaiters := rest, srQ := s.srQ.drop (served.map Waiter.size).sum, res := s.res ++ results } : State).openWids := by
    simp only [State.openWids, hws, List.map_append, hids, List.append_assoc]
    refine (List.perm_append_comm.trans ?_)
    rw [List.append_assoc]
  rw [State.satisfy, heq]
  refine ⟨⟨fun hc => ?_, hp.nodup_iff.mp h.ids, fun w hw => h.fresh w (hp.mem_iff.mpr hw), fun w hw => ?_,
    h.accEmpty, h.frameInTx, withinBound_mono (by simp) h.queueBound, h.accBound⟩, hhead⟩
  · obtain ⟨h1, h2⟩ := h.closedEmpty hc
    rw [hws, List.append_eq_nil_iff] at h1
    exact ⟨h1.2, by simp [h2]⟩
  · obtain ⟨h1, ⟨x, hx, hxw, hxs⟩ | ⟨r, h2, h3⟩⟩ := h.readPending w hw
    · rw [hws, List.mem_append] at hx
      rcases hx with hx | hx
      · refine ⟨h1, .inr ?_⟩
        obtain ⟨i, hi, rfl⟩ := List.getElem_of_mem hx
        have hl := hall.length_eq
        obtain ⟨bs, e, hbs⟩ := (List.forall₂_iff_get.mp hall).2 i hi (hl ▸ hi)
        simp only [List.get_eq_getElem] at e hbs
        refine ⟨.ok bs, List.mem_append_right _ ?_, ?_⟩
        · rw [← hxw, ← e]; exact List.getElem_mem _
        · rintro _ ⟨⟩; rw [hbs, hxs]
      · exact ⟨h1, .inl ⟨x, hx, hxw, hxs⟩⟩
    · exact ⟨h1, .inr ⟨r, List.mem_append_left _ h2, h3⟩⟩

/-- R127, R128: waiters fail, and no identifier is lost. -/
theorem State.Mid.failWaiters {s : State} (h : s.Mid) (p : Waiter → Bool) {r : RdResult} (hr : ∀ bs, r ≠ .ok bs) :
    (s.failWaiters p r).Mid := by
  have hp : s.openWids.Perm (s.failWaiters p r).openWids := by
    have h1 : s.srWaiters.Perm (s.srWaiters.filter (fun w => !p w) ++ s.srWaiters.filter p) :=
      (List.filter_append_perm p s.srWaiters).symm.trans List.perm_append_comm
    have h2 := (h1.map Waiter.wid).append_right (s.res.map Prod.fst)
    simp only [State.openWids, State.failWaiters, List.map_append, List.map_map, List.append_assoc] at h2 ⊢
    exact h2.trans (List.Perm.append_left _ List.perm_append_comm)
  refine ⟨fun hc => ?_, hp.nodup_iff.mp h.ids, fun w hw => h.fresh w (hp.mem_iff.mpr hw), fun w hw => ?_,
    h.accEmpty, h.frameInTx, h.queueBound, h.accBound⟩
  · obtain ⟨h1, h2⟩ := h.closedEmpty hc
    exact ⟨by simp [h1], h2⟩
  · obtain ⟨h1, ⟨x, hx, hxw, hxs⟩ | ⟨r', h2, h3⟩⟩ := h.readPending w hw
    · by_cases hpx : p x = true
      · refine ⟨h1, .inr ⟨r, List.mem_append_right _ ?_, fun bs e => absurd e (hr bs)⟩⟩
        rw [List.mem_map]
        exact ⟨x, List.mem_filter.mpr ⟨hx, hpx⟩, by rw [hxw]⟩
      · exact ⟨h1, .inl ⟨x, List.mem_filter.mpr ⟨hx, by simpa using hpx⟩, hxw, hxs⟩⟩
    · exact ⟨h1, .inr ⟨r', List.mem_append_left _ h2, h3⟩⟩

/-- Waiters that go leave their places. -/
theorem State.Roomy.sublist {s : State} (h : s.Roomy) {ws : List Waiter} (hsub : List.Sublist ws s.srWaiters) :
    withinBound ws.length s.cfg.maxWaiters = true ∧
      ∀ w, s.exWid = some w → w ∉ ws.map Waiter.wid → withinBound (ws.length + 1) s.cfg.maxWaiters = true := by
  refine ⟨withinBound_mono hsub.length_le h.bound, fun w hw hn => ?_⟩
  rcases Nat.lt_or_ge ws.length s.srWaiters.length with hlt | hge
  · exact withinBound_mono hlt h.bound
  · have := hsub.eq_of_length_le hge
    subst this
    exact h.room w hw hn

theorem State.Roomy.satisfy {s : State} (h : s.Roomy) : s.satisfy.Roomy := by
  obtain ⟨served, rest, results, hws, heq, -⟩ := satisfyFrom_spec s.srWaiters s
  rw [State.satisfy, heq]
  have := h.sublist (ws := rest) (hws ▸ List.sublist_append_right _ _)
  exact ⟨this.1, this.2⟩

theorem State.Roomy.failWaiters {s : State} (h : s.Roomy) (p : Waiter → Bool) (r : RdResult) : (s.failWaiters p r).Roomy := by
  have := h.sublist (ws := s.srWaiters.filter fun w => !p w) List.filter_sublist
  exact ⟨this.1, this.2⟩

end Sys2Proof.Machine
end

