-- ==== Sys2Proof/Laws/PerInstr.lean ====
section
/-! SUPPORT. Statements for all instructions, one lemma a constructor. -/

/-- How an instruction's word begins in its format (spec/30 R51, R61, R62): a request frame with the start marker and at
least the nine bytes of a frame with an address, a response with at most its one byte, a port transaction with a
selector in bits 3..0 and zeros above. -/
def Sys2Proof.Laws.WordHead.Statement (i : Sys2Proof.Instr) : Prop :=
  ∀ c : Sys2Proof.Config,
    match i.chan with
    | .request => (Sys2Proof.encode c i).head? = some c.pStart ∧ 9 ≤ (Sys2Proof.encode c i).length
    | .response => (Sys2Proof.encode c i).length ≤ 1
    | .port => ∃ b, (Sys2Proof.encode c i).head? = some b ∧ Sys2Proof.hiNibble b = 0

namespace Sys2Proof.Laws

theorem WordHead.byteRead (addr : Addr16) (count : Byte) : WordHead.Statement (.byteRead addr count) :=
  fun _ => ⟨rfl, by simp [encode, Request.frame, encFrame_length, byteReadPayload]⟩

theorem WordHead.byteWrite (addr : Addr16) (data : Bytes) : WordHead.Statement (.byteWrite addr data) :=
  fun _ => ⟨rfl, by simp only [encode, Request.frame, encFrame_length, byteWritePayload, List.length_append, List.length_cons, List.length_nil]; omega⟩

theorem WordHead.forceOn (addr : Addr16) : WordHead.Statement (.forceOn addr) :=
  fun _ => ⟨rfl, by simp [encode, Request.frame, encFrame_length, bitForcePayload]⟩

theorem WordHead.forceOff (addr : Addr16) : WordHead.Statement (.forceOff addr) :=
  fun _ => ⟨rfl, by simp [encode, Request.frame, encFrame_length, bitForcePayload]⟩

theorem WordHead.respData : WordHead.Statement .respData := fun _ => le_rfl

theorem WordHead.respAck : WordHead.Statement .respAck := fun _ => le_rfl

theorem WordHead.respNak : WordHead.Statement .respNak := fun _ => le_rfl

theorem WordHead.respOther (info : NoRespInfo) : WordHead.Statement (.respOther info) := by
  intro c
  cases info <;> simp [Instr.chan, encode]

theorem WordHead.exch (req : Request) : WordHead.Statement (.exch req) := fun _ => ⟨_, rfl, rfl⟩

theorem WordHead.txDone (status : TxStatus) : WordHead.Statement (.txDone status) := fun _ => ⟨_, rfl, rfl⟩

theorem WordHead.push (chunk : Bytes) : WordHead.Statement (.push chunk) := fun _ => ⟨_, rfl, rfl⟩

theorem WordHead.close (reason : Option Reason) : WordHead.Statement (.close reason) := fun _ => ⟨_, rfl, rfl⟩

theorem WordHead.advance (t : Nat) : WordHead.Statement (.advance t) := fun _ => ⟨_, rfl, rfl⟩

theorem WordHead.rdReq (size timeout : Nat) : WordHead.Statement (.rdReq size timeout) := fun _ => ⟨_, rfl, rfl⟩

theorem WordHead.cksum (bytes : Bytes) : WordHead.Statement (.cksum bytes) := fun _ => ⟨_, rfl, rfl⟩

theorem WordHead.hexenc (bytes : Bytes) : WordHead.Statement (.hexenc bytes) := fun _ => ⟨_, rfl, rfl⟩

theorem WordHead.hexdec (chars : Bytes) : WordHead.Statement (.hexdec chars) := fun _ => ⟨_, rfl, rfl⟩

theorem WordHead.reservedOp9 : WordHead.Statement .reservedOp9 := fun _ => ⟨_, rfl, rfl⟩

theorem WordHead.reservedOpAB (r : BitVec 1) : WordHead.Statement (.reservedOpAB r) :=
  fun _ => ⟨_, rfl, by revert r; decide⟩

theorem WordHead.reservedOpCF (r : BitVec 2) : WordHead.Statement (.reservedOpCF r) :=
  fun _ => ⟨_, rfl, by revert r; decide⟩

end Sys2Proof.Laws
end

