-- ==== Sys2Proof/Tests/Slice0.lean ====
section
/-! SUPPORT. The model's own tests. Expected results come from spec/95_test_vectors.md and from the encodings of
spec/30_encoding.md, named beside each; and for every statement with hypotheses, concrete values that meet them. -/

namespace Sys2Proof.Tests

open Sys2Proof.Machine

/-! ### Helpers -/

/-- The reset machine with another configuration of the four OPEN parameters. -/
def withBounds (maxHex cap waiters : Option Nat) : State :=
  State.resetWith { Config.vectors with maxRespHex := maxHex, queueCap := cap, maxWaiters := waiters }

/-- A block whose decoder waits for its read in state `st` (spec/95 section 2.3 starts its vectors so). -/
def reading (st : ExSt) (acc : Bytes) : State :=
  { State.reset with exSt := st, exAcc := acc, exWid := some 0, srNextWid := 1, srWaiters := [⟨0, st.readSize, 100⟩] }

/-- A block whose first read has been answered, inside a transaction. -/
def answered : State := { State.reset with exSt := .rxFirst, exWid := some 0, srNextWid := 1 }

/-- A block that has sent a frame. -/
def sent : State := { State.reset with exSt := .tx, exFrame := [0x02] }

/-- A block that has sent a frame, with its one waiter's place taken by a standalone read of 5 bytes (R122). -/
def sentFull : State :=
  { sent with cfg := { Config.vectors with maxWaiters := some 1 }, srNextWid := 1, srWaiters := [⟨0, 5, 10⟩] }

/-- A closed reader. -/
def shut : State := { State.reset with srClosed := true, srReason := some [0x78] }

/-- A block with two standalone reads pending (V-SR-4). -/
def twoReads : State := { State.reset with srQ := [0xAA], srNextWid := 2, srWaiters := [⟨0, 3, 10⟩, ⟨1, 1, 50⟩] }

/-- The transaction is presented, and nothing else. -/
def present (i : Instr) (s : State) : State := { s with inp := [⟨i.chan, encode s.cfg i⟩] }

def nextOf : Host.Outcome State Fault Refusal → Option State
  | .next t => some t
  | .fault _ => none
  | .refused _ => none

def refusalIn : Host.Outcome State Fault Refusal → Option Refusal
  | .next _ => none
  | .fault _ => none
  | .refused r => some r

def decodes (ch : Chan) (bs : Bytes) : Option Instr :=
  match decodePacket .vectors ⟨ch, bs⟩ with
  | .ok i => some i
  | .error _ => none

def refuses (ch : Chan) (bs : Bytes) : Option DecodeError :=
  match decodePacket .vectors ⟨ch, bs⟩ with
  | .ok _ => none
  | .error e => some e

/-! ### WellFormed: an ill-formed term for each check -/

theorem test_wf_refuses_256_bytes (data : Bytes) (h : data.length = 256) : (Instr.byteWrite 0 data).wf .vectors = false := by
  simp [Instr.wf, dataFits, h]

theorem test_wf_accepts_255_bytes (data : Bytes) (h : data.length = 255) : (Instr.byteWrite 0 data).wf .vectors = true := by
  simp [Instr.wf, dataFits, h]

theorem test_wf_refuses_marker_as_other : (Instr.respOther (.firstByte 0x15)).wf .vectors = false := by decide

theorem test_wf_refuses_command_code_as_other : (Instr.exch (.other 3)).wf .vectors = false := by decide

/-! ### Decoding: words written out from the spec's encodings -/

/-- V-ENC-1 -/
theorem test_decode_byteRead :
    decodes .request [0x02, 0x30, 0x31, 0x30, 0x46, 0x36, 0x30, 0x34, 0x03, 0x37, 0x34] = some (.byteRead 0x10F6 4) := by
  decide

/-- V-ENC-7 -/
theorem test_decode_byteWrite :
    decodes .request [0x02, 0x31, 0x31, 0x30, 0x46, 0x36, 0x30, 0x32, 0x33, 0x34, 0x31, 0x32, 0x03, 0x33, 0x44] =
      some (.byteWrite 0x10F6 [0x34, 0x12]) := by decide

/-- V-ENC-12: the address is little-endian. -/
theorem test_decode_forceOn :
    decodes .request [0x02, 0x37, 0x30, 0x35, 0x30, 0x39, 0x03, 0x30, 0x38] = some (.forceOn 0x0905) := by decide

/-- V-ENC-13 -/
theorem test_decode_forceOff :
    decodes .request [0x02, 0x38, 0x30, 0x35, 0x30, 0x39, 0x03, 0x30, 0x39] = some (.forceOff 0x0905) := by decide

/-- R61 -/
theorem test_decode_responses :
    decodes .response [0x02] = some .respData ∧ decodes .response [0x06] = some .respAck ∧
    decodes .response [0x15] = some .respNak ∧ decodes .response [0x30] = some (.respOther (.firstByte 0x30)) := by
  decide

/-- R62, selectors 0x0 to 0x2 -/
theorem test_decode_port_requests :
    decodes .port [0x00, 0x00, 0x10, 0xF6, 0x04] = some (.exch (.byteRead 0x10F6 4)) ∧
    decodes .port [0x00, 0x02, 0x09, 0x05] = some (.exch (.forceOn 0x0905)) ∧
    decodes .port [0x01, 0x00] = some (.txDone .ok) ∧ decodes .port [0x01, 0x01] = some (.txDone (.err .notConnected)) ∧
    decodes .port [0x02, 0x02, 0x34, 0x41] = some (.push [0x34, 0x41]) := by decide

/-- R62, selectors 0x3 to 0x5 -/
theorem test_decode_port_reader :
    decodes .port [0x03, 0x00] = some (.close none) ∧ decodes .port [0x03, 0x01, 0x01, 0x78] = some (.close (some [0x78])) ∧
    decodes .port [0x04, 0xE4, 0x00] = none ∧ decodes .port [0x04, 0x64] = some (.advance 100) ∧
    decodes .port [0x04, 0x80, 0x01] = some (.advance 128) ∧
    decodes .port [0x05, 0x03, 0x0A] = some (.rdReq 3 10) := by decide

/-- R62, selectors 0x6 to 0x8 -/
theorem test_decode_port_units :
    decodes .port [0x06, 0x01, 0x03] = some (.cksum [0x03]) ∧ decodes .port [0x07, 0x01, 0x0A] = some (.hexenc [0x0A]) ∧
    decodes .port [0x08, 0x02, 0x66, 0x46] = some (.hexdec [0x66, 0x46]) := by decide

/-- R63, selectors 0x9 to 0xF -/
theorem test_decode_reserved :
    decodes .port [0x09] = some .reservedOp9 ∧ decodes .port [0x0A] = some (.reservedOpAB 0) ∧
    decodes .port [0x0B] = some (.reservedOpAB 1) ∧ decodes .port [0x0C] = some (.reservedOpCF 0) ∧
    decodes .port [0x0D] = some (.reservedOpCF 1) ∧ decodes .port [0x0E] = some (.reservedOpCF 2) ∧
    decodes .port [0x0F] = some (.reservedOpCF 3) := by decide

/-- R63: a command digit of none of the four, and a wrong checksum. -/
theorem test_decode_rejects_by_name :
    refuses .request [0x02, 0x32, 0x30, 0x30, 0x30, 0x30, 0x03, 0x46, 0x35] = some .unknownCommand ∧
    refuses .request [0x02, 0x37, 0x30, 0x35, 0x30, 0x39, 0x03, 0x30, 0x39] = some .badChecksum ∧
    refuses .port [] = some .truncated ∧ refuses .port [0x10] = some .badSelectorByte ∧
    refuses .port [0x09, 0x00] = some .trailingBytes := by decide

/-- spec/opcode_table.json: BYTE_WRITE 0x31, RESP_NAK 0x15, ADVANCE 0x4, RESERVED_OP_C_F 0xC. -/
theorem test_decode_table_words :
    decodeTableWord 8 0x31 = some (.byteWrite 0 []) ∧ decodeTableWord 8 0x15 = some .respNak ∧
    decodeTableWord 4 0x4 = some (.advance 0) ∧ decodeTableWord 4 0xC = some (.reservedOpCF 0) := by decide

/-! ### Encoding -/

/-- V-ENC-3, V-ENC-9 -/
theorem test_encode_requests :
    encode .vectors (.byteRead 0xFFFF 255) = [0x02, 0x30, 0x46, 0x46, 0x46, 0x46, 0x46, 0x46, 0x03, 0x44, 0x37] ∧
    encode .vectors (.byteWrite 0xABCD [0xFF]) =
      [0x02, 0x31, 0x41, 0x42, 0x43, 0x44, 0x30, 0x31, 0x46, 0x46, 0x03, 0x32, 0x42] := by decide

/-- V-ENC-14, V-ENC-15 -/
theorem test_encode_forces :
    encode .vectors (.forceOn 0x0000) = [0x02, 0x37, 0x30, 0x30, 0x30, 0x30, 0x03, 0x46, 0x41] ∧
    encode .vectors (.forceOff 0xFFFF) = [0x02, 0x38, 0x46, 0x46, 0x46, 0x46, 0x03, 0x35, 0x33] := by decide

/-! ### The pure units -/

/-- V-CK-1, V-CK-3, V-CK-8 -/
theorem test_cksum :
    ckRender (ckSum [0x30, 0x31, 0x41, 0x42, 0x03]) = [0x45, 0x37] ∧ ckRender (ckSum [0xFF, 0xFF]) = [0x46, 0x45] ∧
    ckRender (ckSum [0x0A]) = [0x30, 0x41] := by decide

/-- V-CK-4, by a step -/
theorem test_cksum_step :
    (nextOf (step (present (.cksum [0x80, 0x80]) .reset))).map State.out = some [.cksum [0x30, 0x30]] := by decide

/-- V-HX-1, by a step -/
theorem test_hexenc_step :
    (nextOf (step (present (.hexenc [0x10, 0xF6, 0x04]) .reset))).map State.out =
      some [.hexenc [0x31, 0x30, 0x46, 0x36, 0x30, 0x34]] := by decide

/-- V-HX-5, V-HX-7, V-HX-10, V-HX-11, V-HX-12 -/
theorem test_hexdec :
    hexdecResult [0x33, 0x34, 0x31, 0x32, 0x41, 0x42, 0x43, 0x44] = .inl [0x34, 0x12, 0xAB, 0xCD] ∧
    hexdecResult [0x66, 0x46] = .inl [0xFF] ∧ hexdecResult [0x61, 0x62, 0x63] = .inr .oddLength ∧
    hexdecResult [0x47, 0x30] = .inr (.badChar 0) ∧ hexdecResult [0x30, 0x02] = .inr (.badChar 1) := by decide

/-- V-HX-6, by a step -/
theorem test_hexdec_step :
    (nextOf (step (present (.hexdec [0x66, 0x66]) .reset))).map State.out = some [.hexdec (.inl [0xFF])] := by decide

/-! ### Requests -/

/-- P1, transaction 1 -/
theorem test_exch_byteRead :
    (nextOf (step (present (.exch (.byteRead 0x10F6 4)) .reset))).map (fun t => (t.out, t.exSt)) =
      some ([.txWrite [0x02, 0x30, 0x31, 0x30, 0x46, 0x36, 0x30, 0x34, 0x03, 0x37, 0x34]], .tx) := by decide

/-- V-ENC-6, V-ENC-8: the commands in their wire form -/
theorem test_byte_commands :
    (nextOf (step (present (.byteRead 0x0001 1) .reset))).map State.out =
      some [.txWrite [0x02, 0x30, 0x30, 0x30, 0x30, 0x31, 0x30, 0x31, 0x03, 0x35, 0x35]] ∧
    (nextOf (step (present (.byteWrite 0x0000 []) .reset))).map State.out =
      some [.txWrite [0x02, 0x31, 0x30, 0x30, 0x30, 0x30, 0x30, 0x30, 0x03, 0x35, 0x34]] := by decide

/-- V-ENC-12, V-ENC-13 -/
theorem test_force_commands :
    (nextOf (step (present (.forceOn 0x0905) .reset))).map (fun t => t.exFrame) =
      some [0x02, 0x37, 0x30, 0x35, 0x30, 0x39, 0x03, 0x30, 0x38] ∧
    (nextOf (step (present (.forceOff 0x0905) .reset))).map (fun t => t.exFrame) =
      some [0x02, 0x38, 0x30, 0x35, 0x30, 0x39, 0x03, 0x30, 0x39] := by decide

/-- V-ENC-11 -/
theorem test_exch_256_bytes_refused (data : Bytes) (h : data.length = 256) :
    exec (.exch (.byteWrite 0 data)) State.reset = .refused .dataTooLong := by
  simp [h, exec, execExch, submit, State.busy, State.reset, State.resetWith, refusalOf]

/-- V-ENC-16 -/
theorem test_exch_unknown_command_refused :
    refusalIn (step (present (.exch (.other 0x20)) .reset)) = some .unknownCommand := by decide

/-- V-EX-3: the second request is held. -/
theorem test_exch_held :
    (nextOf (step (present (.exch (.forceOn 0x0905)) sent))).map (fun t => (t.held, t.exSt, t.out)) =
      some ([.exch (.forceOn 0x0905)], .tx, []) := by decide

/-- R63: a reserved selector is refused. -/
theorem test_reserved_refused :
    refusalIn (step (present (.reservedOp9) .reset)) = some (.reservedSelector 0x9) ∧
    refusalIn (step (present (.reservedOpAB 1) .reset)) = some (.reservedSelector 0xB) ∧
    refusalIn (step (present (.reservedOpCF 2) .reset)) = some (.reservedSelector 0xE) := by decide

/-! ### Responses -/

/-- R92 with R124: what V-DEC-19 leaves after its first byte, by the table's word. -/
theorem test_respData :
    (nextOf (step (State.reset.withFetchWord 8 0x02))).map (fun t => (t.exSt, t.srWaiters)) =
      some (.rxAccum, [⟨1, 1, 100⟩]) := by decide

/-- V-DEC-12, V-DEC-13, by the table's words -/
theorem test_respAck_respNak :
    (nextOf (step (State.reset.withFetchWord 8 0x06))).map State.out = some [.exchResp (.ok [])] ∧
    (nextOf (step (State.reset.withFetchWord 8 0x15))).map State.out = some [.exchResp (.err .unsupportedCommand)] := by
  decide

/-- V-DEC-14, by the table's word -/
theorem test_respOther :
    (nextOf (step (State.reset.withFetchWord 8 0x99))).map State.out =
      some [.exchResp (.err (.noResponse (.firstByte 0x99)))] := by decide

/-- V-DEC-2, V-DEC-3: the right checksum and a wrong one, in one transaction -/
theorem test_push_data_response :
    (nextOf (step (present (.push [0x02, 0x31, 0x30, 0x03, 0x36, 0x34]) (reading .rxFirst [])))).map State.out =
      some [.exchResp (.ok [0x10])] ∧
    (nextOf (step (present (.push [0x02, 0x31, 0x30, 0x03, 0x36, 0x35]) (reading .rxFirst [])))).map State.out =
      some [.exchResp (.err (.malformedResponse .m5Cksum))] := by decide

/-- V-DEC-12, V-DEC-13, V-DEC-14, by the `PUSH` that brings the byte -/
theorem test_push_one_byte_response :
    (nextOf (step (present (.push [0x06, 0x41]) (reading .rxFirst [])))).map (fun t => (t.out, t.srQ)) =
      some ([.exchResp (.ok [])], [0x41]) ∧
    (nextOf (step (present (.push [0x15]) (reading .rxFirst [])))).map State.out =
      some [.exchResp (.err .unsupportedCommand)] ∧
    (nextOf (step (present (.push [0x30, 0x31]) (reading .rxFirst [])))).map (fun t => (t.out, t.srQ)) =
      some ([.exchResp (.err (.noResponse (.firstByte 0x30)))], [0x31]) := by decide

/-- V-DEC-8, V-DEC-10: bad hex, and the checksum tested before it -/
theorem test_push_bad_hex :
    (nextOf (step (present (.push [0x02, 0x31, 0x03, 0x33, 0x34]) (reading .rxFirst [])))).map State.out =
      some [.exchResp (.err (.malformedResponse .m6BadHex))] ∧
    (nextOf (step (present (.push [0x02, 0x47, 0x30, 0x03, 0x30, 0x30]) (reading .rxFirst [])))).map State.out =
      some [.exchResp (.err (.malformedResponse .m5Cksum))] := by decide

/-- V-DEC-23: the fourth character overflows and the rest stays buffered. -/
theorem test_push_overflow :
    (nextOf (step (present (.push [0x02, 0x31, 0x32, 0x33, 0x34, 0x03, 0x43, 0x44])
      { reading .rxFirst [] with cfg := { Config.vectors with maxRespHex := some 3 } }))).map (fun t => (t.out, t.srQ)) =
      some ([.exchResp (.err (.malformedResponse .m3Overflow))], [0x03, 0x43, 0x44]) := by decide

/-! ### Transport and reader -/

/-- P1, transaction 2; V-EX-1 -/
theorem test_txDone :
    (nextOf (step (present (.txDone .ok) sent))).map (fun t => (t.exSt, t.srWaiters, t.exWid)) =
      some (.rxFirst, [⟨0, 1, 100⟩], some 0) ∧
    (nextOf (step (present (.txDone (.err .notConnected)) sent))).map (fun t => (t.out, t.srNextWid)) =
      some ([.exchResp (.err (.transportError .notConnected))], 0) := by decide

/-- V-EX-2 -/
theorem test_txDone_refused : refusalIn (step (present (.txDone .ok) .reset)) = some .txDoneOutsideTx := by decide

/-- R9, R122, R28: with the one waiter's place taken, `TX_DONE` has no step; it is held whole, and no state between two
transactions has the decoder receiving without its read. Once the place is free it is taken. -/
theorem test_txDone_held :
    (nextOf (step (present (.txDone .ok) sentFull))).map (fun t => (t.held, t.exSt, t.exFrame, t.srNextWid)) =
      some ([.txDone .ok], .tx, [0x02], 1) ∧
    (nextOf (step { sentFull with held := [.txDone .ok], srWaiters := [] })).map (fun t => (t.held, t.exSt, t.exWid)) =
      some ([], .rxFirst, some 1) := by decide

/-- V-EX-4: the early response is decoded at `TX_DONE`, with 11 reads. -/
theorem test_txDone_early :
    (nextOf (step (present (.txDone .ok)
      { sent with srQ := [0x02, 0x30, 0x31, 0x30, 0x32, 0x30, 0x33, 0x30, 0x34, 0x03, 0x38, 0x44] }))).map
        (fun t => (t.out, t.srNextWid, t.srQ)) = some ([.exchResp (.ok [1, 2, 3, 4])], 11, []) := by decide

/-- V-SR-11, V-SR-10: never fits, does not fit yet -/
theorem test_push_bounds :
    refusalIn (step (present (.push [1, 2, 3]) (withBounds none (some 2) none))) = some .pushTooLong ∧
    (nextOf (step (present (.push [3]) { withBounds none (some 2) none with srQ := [1, 2] }))).map State.held =
      some [.push [3]] := by decide

/-- V-DEC-18, V-DEC-20 -/
theorem test_close :
    (nextOf (step (present (.close (some [0x45])) (reading .rxFirst [])))).map State.out =
      some [.exchResp (.err (.noResponse (.closed (some [0x45]))))] ∧
    (nextOf (step (present (.close none) (reading .rxAccum [0x31])))).map State.out =
      some [.exchResp (.err (.malformedResponse .m1NoEnd))] := by decide

/-- V-SR-4: expiry first, then service -/
theorem test_advance_expires_then_serves :
    (nextOf (step (present (.advance 10) twoReads))).map (fun t => (t.out, t.srQ, t.now)) =
      some ([.rdResp 0 .timeout, .rdResp 1 (.ok [0xAA])], [], 10) := by decide

/-- V-SR-12, V-DEC-21 -/
theorem test_advance_back_and_short_checksum :
    refusalIn (step (present (.advance 9) { State.reset with now := 10 })) = some .timeBackwards ∧
    (nextOf (step (present (.advance 100) { reading .rxCksum [0x31, 0x30] with srQ := [0x36] }))).map
      (fun t => (t.out, t.srQ)) = some ([.exchResp (.err (.malformedResponse .m4ShortCksum))], [0x36]) := by decide

/-- V-SR-3: a served read overtakes an older waiter; V-SR-7: a read of 0 bytes -/
theorem test_rdReq :
    (nextOf (step (present (.rdReq 1 10)
      { State.reset with srQ := [0xAA], srNextWid := 1, srWaiters := [⟨0, 3, 10⟩] }))).map (fun t => (t.out, t.srWaiters)) =
      some ([.rdResp 1 (.ok [0xAA])], [⟨0, 3, 10⟩]) ∧
    (nextOf (step (present (.rdReq 0 10) { State.reset with srQ := [0x09] }))).map (fun t => (t.out, t.srQ)) =
      some ([.rdResp 0 (.ok [])], [0x09]) := by decide

/-- R6: a configuration that breaks it is refused. -/
theorem test_illegal_config :
    refusalIn (step (State.resetWith { Config.vectors with pEnd := 0x41 })) = some .illegalConfig := by decide

/-- The reset machine, with nothing presented, stays as it is (log entry 2). -/
theorem test_reset_idles : nextOf (step State.reset) = some State.reset := by decide

/-! ### Witnesses: for every statement with hypotheses, values that meet them, at the boundaries of its clauses -/

/-- `HexEncodeUppercasePairs`: the one index of a one-byte sequence. -/
theorem witness_hexEncode : 0 < ([0x4B] : Bytes).length := by decide

/-- `HexDecodeByRule`: the first and last character of each range of the alphabet and their neighbours outside; a
sequence for each clause. -/
theorem witness_hexDecode_clauses :
    nib 0x30 = some 0 ∧ nib 0x39 = some 9 ∧ nib 0x41 = some 10 ∧ nib 0x46 = some 15 ∧ nib 0x61 = some 10 ∧
    nib 0x66 = some 15 ∧ nib 0x2F = none ∧ nib 0x3A = none ∧ nib 0x40 = none ∧ nib 0x47 = none ∧ nib 0x60 = none ∧
    nib 0x67 = none ∧ ([0x31] : Bytes).length % 2 = 1 ∧ ([0x30, 0x02] : Bytes).length % 2 = 0 ∧
    (∀ ch ∈ ([0x66, 0x46] : Bytes), nib ch ≠ none) := by decide

/-- `HexRoundTrip`, second half, on mixed case; `PureUnitsOnlyAnswer`, both results of `HEXDEC`. -/
theorem witness_hexDecode_results :
    hexDecode [0x66, 0x46] = .ok [0xFF] ∧ hexDecode [0x31] = .error .oddLength ∧ hexDecode [] = .ok [] :=
  ⟨rfl, rfl, rfl⟩

/-- `EndMarkerStandsOnce`, `FirstByteClasses`, `DecodeOfEncode`: the default configuration, identifier 9. -/
theorem witness_legal : Config.vectors.legal = true ∧ 9 ≤ 9 := by decide

/-- `ByteRequestAccepted`, `ForceRequestAccepted`, `ExchAccepted`, `RefusedRequests`: an idle block; 255 bytes are the most
that is accepted and 256 the least that is refused. -/
theorem witness_idle_requests :
    State.reset.exSt = .idle ∧ (∃ data : Bytes, data.length = 255) ∧ ∃ data : Bytes, 255 < data.length :=
  ⟨rfl, ⟨List.replicate 255 0, List.length_replicate⟩, List.replicate 256 0, by rw [List.length_replicate]; decide⟩

/-- `BusyRequestHeld`: each request in a busy block. -/
theorem witness_busy : holdClass (.exch (.forceOn 0)) = some .request ∧ holdClass (.byteRead 0 0) = some .request ∧
    sent.exSt ≠ .idle := by decide

/-- `DecodeOfEncode`: an instruction of each format, at the edges of its operands. -/
theorem witness_decodeOfEncode :
    (Instr.byteRead 0xFFFF 255).wf .vectors = true ∧ (Instr.byteRead 0xFFFF 255).hasWord = true ∧
    (Instr.byteWrite 0 []).wf .vectors = true ∧ (Instr.respOther (.firstByte 0)).wf .vectors = true ∧
    (Instr.respOther (.firstByte 0)).hasWord = true ∧ (Instr.exch (.other 4)).wf .vectors = true ∧
    (Instr.advance 128).wf .vectors = true ∧ (Instr.reservedOpCF 3).hasWord = true := by decide

/-- `EncodeOfDecode`, `DecodedRequestSendsItsFrame`: V-ENC-12, in the idle reset machine. -/
theorem witness_decoded_frame :
    decode .vectors .request [0x02, 0x37, 0x30, 0x35, 0x30, 0x39, 0x03, 0x30, 0x38] = .ok (.forceOn 0x0905, []) ∧
    decode .vectors .port [0x09, 0x41] = .ok (.reservedOp9, [0x41]) ∧ State.reset.exSt = .idle := ⟨rfl, rfl, rfl⟩

/-- `StepRunsPresented`: a request with nothing before it, one behind a held request that cannot go, a packet that is no
transaction, and a response presented as one. -/
theorem witness_presented :
    (present (.exch (.forceOn 0)) .reset).cfg.legal = true ∧ (present (.exch (.forceOn 0)) .reset).res = [] ∧
    (present (.exch (.forceOn 0)) .reset).noneGoes (present (.exch (.forceOn 0)) .reset).held ∧
    decodes .port [0x00, 0x02, 0x00, 0x00] = some (.exch (.forceOn 0)) ∧
    ({ sent with held := [.exch (.forceOff 1)] } : State).noneGoes [.exch (.forceOff 1)] ∧
    holdClass (.exch (.forceOn 0)) ≠ none ∧ holdClass (.exch (.forceOff 1)) = holdClass (.exch (.forceOn 0)) ∧
    refuses .port [0x10] = some .badSelectorByte ∧ (⟨.response, [0x06]⟩ : Packet).chan = .response :=
  ⟨by decide, rfl, noneGoes_nil _, by decide, noneGoes_singleton (by decide), by decide, rfl, by decide, rfl⟩

/-- `StepRunsFirstRead`, `CascadeRunsResponseClass`: the result of a first read, of each kind. -/
theorem witness_first_read :
    answered.cfg.legal = true ∧ answered.exWid = some 0 ∧ answered.firstAnswered = true ∧
    firstClass answered.cfg (.ok [0x06]) = some .ack ∧ firstClass answered.cfg .timeout = some (.other .timeout) ∧
    ({ answered with res := [(0, .ok [0x06])] } : State).res = (0, .ok [0x06]) :: [] := by decide

/-- `StepTakesHeldThenIdles`: behind a held request that cannot go, a push that just fits, a read that a waiter, a byte and a
close lets go, and a completion that a waiter lets go; nothing held and nothing presented. -/
theorem witness_held :
    sent.cfg.legal = true ∧ sent.res = [] ∧ sent.noneGoes [.exch (.forceOn 0)] ∧
    (∀ j ∈ [Instr.exch (.forceOn 0)], holdClass j ≠ some .push ∧ holdClass j ≠ some .read ∧ holdClass j ≠ some .completion) ∧
    withinBound (([1] : Bytes).length + ([2] : Bytes).length) (some 2) = true ∧
    1 ≤ ({ sent with srQ := [1] } : State).srQ.length ∧ shut.srClosed = true ∧ sent.waitersFull = false ∧
    ¬sent.cannotGo [.exch (.forceOn 0)] (.txDone .ok) ∧ State.reset.noneGoes State.reset.held ∧ State.reset.inp = [] :=
  ⟨by decide, rfl, noneGoes_singleton (by decide), by decide, by decide, by decide, rfl, by decide,
    by unfold State.cannotGo; decide, noneGoes_nil _, rfl⟩

/-- `HeldRequestAccepted`: a request in each of its forms, behind a held push that does not fit. -/
theorem witness_held_request :
    ({ withBounds none (some 2) none with srQ := [1, 2] } : State).cfg.legal = true ∧
    ({ withBounds none (some 2) none with srQ := [1, 2] } : State).exSt = .idle ∧
    ({ withBounds none (some 2) none with srQ := [1, 2] } : State).noneGoes [.push [3]] ∧
    (∀ j ∈ [Instr.push [3]], holdClass j ≠ some .request) ∧ requestOf (.forceOn 0x0905) = some (.forceOn 0x0905) ∧
    requestOf (.exch (.byteRead 0 1)) = some (.byteRead 0 1) ∧ refusalOf (.forceOn 0x0905) = none :=
  ⟨by decide, rfl, noneGoes_singleton (by decide), by decide, rfl, rfl, rfl⟩

/-- `IllegalConfigurationRefused`: each condition of R6 at its edge. -/
theorem witness_config_edges :
    ({ Config.vectors with pNak := 0x06 } : Config).legal = false ∧ ({ Config.vectors with pEnd := 0x66 } : Config).legal = false ∧
    ({ Config.vectors with pEnd := 0x67 } : Config).legal = true ∧ ({ Config.vectors with cmdBR := 10 } : Config).legal = false ∧
    ({ Config.vectors with cmdBR := 9 } : Config).legal = true ∧ ({ Config.vectors with cmdBR := 1 } : Config).legal = false ∧
    ({ Config.vectors with queueCap := some 1 } : Config).legal = false ∧
    ({ Config.vectors with queueCap := some 2, maxWaiters := some 1 } : Config).legal = true ∧
    ({ Config.vectors with maxWaiters := some 0 } : Config).legal = false := by decide

/-- `OneByteResponsesEndExchange`, `StartMarkerBeginsAccumulation`, `ResponseNeedsFirstRead`: the first read has been
answered, on an open reader with and without room for a waiter and on a closed one; and it has not. -/
theorem witness_responses :
    ({ answered with cfg := sentFull.cfg, srWaiters := [⟨5, 3, 10⟩] } : State).waitersFull = true ∧
    ({ answered with cfg := sentFull.cfg, srWaiters := [⟨5, 3, 10⟩] } : State).firstAnswered = true ∧ answered.firstAnswered = true ∧ answered.res = [] ∧ answered.srQ = [] ∧ answered.srClosed = false ∧
    answered.waitersFull = false ∧ ({ answered with srClosed := true } : State).firstAnswered = true ∧
    State.reset.firstAnswered = false ∧ (reading .rxFirst []).firstAnswered = false := by decide

/-- `FirstByteAckAndNakEndExchange`: the first byte is the ACK, and the NAK, marker. -/
theorem witness_ack_nak_bytes :
    answered.cfg.legal = true ∧ answered.cfg.pAck = 0x06 ∧ answered.cfg.pNak = 0x15 ∧ answered.exWid = some 0 ∧
    ({ answered with res := [(0, .ok [0x06])] } : State).firstAnswered = true ∧
    ({ answered with res := [(0, .ok [0x15])] } : State).firstAnswered = true := by decide

/-- `AccumulationByRule`: a character that the accumulator just holds, the end marker, and both failures. -/
theorem witness_accumulation :
    (0x30 : Byte) ≠ answered.cfg.pEnd ∧ withinBound (([0x31] : Bytes).length + 1) (some 2) = true ∧
    answered.cfg.pEnd = 0x03 ∧ answered.srQ = [] ∧ answered.srClosed = false ∧ answered.waitersFull = false ∧
    ({ answered with exSt := .rxAccum, res := [(0, .timeout)] } : State).res = [(0, .timeout)] ∧
    ({ answered with exSt := .rxAccum, res := [(0, .closed none)] } : State).exWid = some 0 := by decide

/-- `ChecksumPairDecidesResult`: the right pair for hex characters and for others, and a wrong pair (V-DEC-2, V-DEC-9,
V-DEC-3). -/
theorem witness_checksum_pair :
    ckRender (ckSum ([0x31, 0x30] ++ [0x03])) = [0x36, 0x34] ∧ hexDecode [0x31, 0x30] = .ok [0x10] ∧
    ckRender (ckSum ([0x47, 0x30] ++ [0x03])) = [0x37, 0x41] ∧ hexDecode [0x47, 0x30] = .error (.badChar 0) ∧
    ([0x36, 0x35] : Bytes) ≠ ckRender (ckSum ([0x31, 0x30] ++ [0x03])) ∧
    ({ answered with exSt := .rxCksum, exAcc := [0x31, 0x30], res := [(0, .ok [0x36, 0x34])] } : State).exWid = some 0 :=
  ⟨rfl, rfl, rfl, rfl, by decide, rfl⟩

/-- `DataResponseDecoded`, `OverflowEndsExchange`: a waiting decoder; a response of as many characters as the
accumulator holds, and one more. -/
theorem witness_decoder_waits : (reading .rxFirst []).awaiting .rxFirst ⟨0, 1, 100⟩ ∧
    withinBound ([0x31, 0x30] : Bytes).length (some 2) = true ∧ (0x03 : Byte) ∉ ([0x31, 0x30] : Bytes) ∧
    (reading .rxFirst []).chunkFits ([0x02] ++ [0x31, 0x30] ++ [0x03, 0x36, 0x34] ++ [0x06]) = true :=
  ⟨⟨rfl, rfl, rfl, rfl, by decide, rfl, rfl⟩, by decide, by decide, by decide⟩

/-- `EarlyResponseDecodedAtTxDone`: V-EX-4. -/
theorem witness_early_response :
    ({ sent with srQ := dataResponse Config.vectors (hexEncode [1, 2]) ++ [0x06] } : State).exSt = .tx ∧
    sent.exAcc = [] ∧ sent.res = [] ∧ sent.srWaiters = [] ∧ sent.srClosed = false ∧
    withinBound (2 * ([1, 2] : Bytes).length) sent.cfg.maxRespHex = true := by decide

/-- `CloseEndsExchange`, `DeadlineEndsExchange`: a read of each state; the deadline and the time before it. -/
theorem witness_failing_reads :
    (reading .rxCksum [0x31]).awaiting .rxCksum ⟨0, 2, 100⟩ ∧ (reading .rxAccum []).awaiting .rxAccum ⟨0, 1, 100⟩ ∧
    readFailure .rxCksum none = some (.malformedResponse .m4ShortCksum) ∧
    readFailure .rxFirst (some none) = some (.noResponse (.closed none)) ∧ 100 ≤ 100 ∧ 99 < 100 :=
  ⟨⟨rfl, rfl, rfl, rfl, by decide, rfl, rfl⟩, ⟨rfl, rfl, rfl, rfl, by decide, rfl, rfl⟩, rfl, rfl, le_rfl, by decide⟩

/-- `TransportErrorEndsExchange`, `TxDoneStartsDecoding`, `TxDoneOnlyInTx`: a sent frame, on an open reader with and without
room for a waiter, and on a closed one; and none. -/
theorem witness_txDone :
    sent.exSt = .tx ∧ sent.res = [] ∧ sent.srQ = [] ∧ sent.srClosed = false ∧ sent.waitersFull = false ∧
    sentFull.exSt = .tx ∧ sentFull.srQ = [] ∧ sentFull.waitersFull = true ∧
    ({ sent with srClosed := true } : State).srClosed = true ∧ State.reset.exSt ≠ .tx := by decide

/-- `PushBuffersHoldsOrRefuses`: a chunk that just fits, one that does not fit yet, one that never does, and a closed
reader. -/
theorem witness_push :
    withinBound (([1] : Bytes).length + ([2] : Bytes).length) (some 2) = true ∧
    withinBound (([1, 2] : Bytes).length + ([3] : Bytes).length) (some 2) = false ∧
    withinBound ([3, 4] : Bytes).length (some 2) = true ∧ withinBound ([1, 2, 3] : Bytes).length (some 2) = false ∧
    shut.srClosed = true := by decide

/-- `PushServesOldestFirst`, `AdvanceExpiresThenServes`, `CloseFailsPendingReads`, `CloseAndAdvanceComplete`: standalone reads
are pending; a time at the clock and one before it. -/
theorem witness_standalone_reads :
    twoReads.srClosed = false ∧ twoReads.chunkFits [0xBB] = true ∧ twoReads.exWid = none ∧ twoReads.res = [] ∧
    twoReads.now ≤ 0 ∧ 9 < ({ State.reset with now := 10 } : State).now ∧ shut.srClosed = true := by decide

/-- `ReadRequestByRule`: a closed reader, enough bytes, too few with room for a waiter and without. -/
theorem witness_rdReq :
    State.reset.exWid ≠ some State.reset.srNextWid ∧ shut.srClosed = true ∧ 1 ≤ twoReads.srQ.length ∧
    twoReads.srQ.length < 2 ∧ twoReads.waitersFull = false ∧
    ({ twoReads with cfg := { Config.vectors with maxWaiters := some 2 } } : State).waitersFull = true ∧
    ({ twoReads with cfg := { Config.vectors with maxWaiters := some 3 } } : State).waitersFull = false := by decide

/-- `StepKeepsInvariants` and the statements over `State.Inv`: a block whose decoder waits meets the invariants. -/
theorem witness_inv : (reading .rxAccum [0x31]).Inv := by
  constructor <;>
    simp [reading, State.reset, State.resetWith, Config.vectors, ExSt.receiving, ExSt.readSize, withinBound]

/-- `ChunkingUnobservable`: that block, and one that does not decode, with two chunks. -/
theorem witness_chunking :
    (reading .rxAccum [0x31]).cfg.legal = true ∧ (reading .rxAccum [0x31]).srWaiters = [⟨0, 1, 100⟩] ∧
    (reading .rxAccum [0x31]).exWid = some 0 ∧ (reading .rxAccum [0x31]).chunkFits ([0x30, 0x03] ++ [0x36, 0x34]) = true ∧
    twoReads.exWid = none := by decide

/-- `StepKeepsInvariants`, `StepKeepsAnsweredOnce`, `StepIsMonotone`, `DecodingTransactionsFrame`, `TransactionsEndDispatched`,
`OnlyCloseClosesOnlyAdvanceMovesTime`: an operation that answers a next state, taken by a step. -/
theorem witness_step : (nextOf (step (present (.push [0x30]) (reading .rxAccum [0x31])))).isSome = true ∧
    (nextOf (exec (.push [0x30]) (reading .rxAccum [0x31]))).isSome = true ∧
    (nextOf (exec (.close none) (reading .rxAccum [0x31]))).isSome = true ∧
    (nextOf (exec (.advance 0) (reading .rxAccum [0x31]))).isSome = true ∧ (reading .rxAccum [0x31]).res = [] := by
  decide

/-- `StepKeepsAnsweredOnce`: one read answered and two pending. -/
theorem witness_answeredOnce :
    ({ twoReads with out := [.rdResp 5 .timeout], srNextWid := 6 } : State).answeredOnce := by
  refine ⟨by decide, by decide⟩

/-- `StepKeepsExchangesSerial`: an exchange in flight. -/
theorem witness_serial : ({ sent with out := [.txWrite [0x02]] } : State).serial := rfl

/-- `StepKeepsDecoderReading`: a block with a bound on the waiters, which it has reached, and the step that holds its
`TX_DONE`. -/
theorem witness_full : sentFull.Inv ∧ (nextOf (step (present (.txDone .ok) sentFull))).isSome = true := by
  refine ⟨?_, by decide⟩
  constructor <;>
    simp [sentFull, sent, State.reset, State.resetWith, Config.vectors, ExSt.receiving, withinBound]

/-- `OneByteResponsesDecoded`: the ACK, the NAK and another byte, with a byte behind it, pushed and buffered. -/
theorem witness_one_byte :
    (reading .rxFirst []).awaiting .rxFirst ⟨0, 1, 100⟩ ∧ (0x06 : Byte) ≠ Config.vectors.pStart ∧
    (0x15 : Byte) ≠ Config.vectors.pStart ∧ (0x99 : Byte) ≠ Config.vectors.pStart ∧
    (reading .rxFirst []).chunkFits [0x06, 0x41] = true ∧ ({ sent with srQ := [0x15, 0x41] } : State).exSt = .tx ∧
    ({ sent with srQ := [0x15, 0x41] } : State).srQ = 0x15 :: [0x41] :=
  ⟨⟨rfl, rfl, rfl, rfl, by decide, rfl, rfl⟩, by decide, by decide, by decide, by decide, rfl, rfl⟩

/-- `ResponseInPartsAccumulates`: each state, with an accumulator that the part just fills; a part with the end marker and no,
one and two checksum characters, and one that completes the checksum. -/
theorem witness_parts :
    (reading .rxFirst []).awaiting .rxFirst ⟨0, 1, 100⟩ ∧ (reading .rxAccum [0x31]).awaiting .rxAccum ⟨0, 1, 100⟩ ∧
    ({ reading .rxCksum [0x31, 0x30] with srQ := [0x36] } : State).awaiting .rxCksum ⟨0, 2, 100⟩ ∧
    withinBound ((reading .rxAccum [0x31]).exAcc.length + ([0x30] : Bytes).length) (some 2) = true ∧
    (0x03 : Byte) ∉ ([0x30] : Bytes) ∧ (reading .rxAccum [0x31]).chunkFits [0x30, 0x03, 0x36, 0x34] = true ∧
    ([] : Bytes).length ≤ 1 ∧ ([0x36] : Bytes).length ≤ 1 ∧ ([0x36] : Bytes) ++ [0x34] = 0x36 :: 0x34 :: [] :=
  ⟨⟨rfl, rfl, rfl, rfl, by decide, rfl, rfl⟩, ⟨rfl, rfl, rfl, rfl, by decide, rfl, rfl⟩,
    ⟨rfl, rfl, rfl, rfl, by decide, rfl, rfl⟩, by decide, by decide, by decide, by decide, by decide, rfl⟩

/-- `HeldExactlyWhereNoStep`: what is held, of each class, and what just is not. -/
theorem witness_hold :
    sent.mustHold (.forceOn 0) = true ∧ State.reset.mustHold (.forceOn 0) = false ∧
    ({ withBounds none (some 2) none with srQ := [1, 2] } : State).mustHold (.push [3]) = true ∧
    ({ withBounds none (some 2) none with srQ := [1] } : State).mustHold (.push [3]) = false ∧
    sentFull.mustHold (.rdReq 1 0) = true ∧ sentFull.mustHold (.rdReq 0 0) = false ∧ sentFull.mustHold (.txDone .ok) = true ∧
    sent.mustHold (.txDone .ok) = false := by decide

end Sys2Proof.Tests
end

section
/-! PROOFS. The reset state (spec/10_state.md R29). -/

namespace Sys2Proof.Machine

/-- Settles O47: `State.resetWith` writes each element of R29's table with that table's value, and stores the
configuration it is given, so each element in turn is read off its definition. -/
theorem resetValues : Obligations.ResetValues :=
  fun _ => ⟨rfl, rfl, rfl, rfl, rfl, rfl, rfl, rfl, rfl, rfl, rfl⟩

end Sys2Proof.Machine
end

section
/-! PROOFS. The request commands in an idle block (spec/40_frame_encode.md R71 to R74, spec/43_exchange.md R113). -/

namespace Sys2Proof.Machine

/-- R113 for every operation of the request port: what an idle block does not refuse it accepts, with the request's
frame. -/
theorem exec_request_accepted {i : Instr} {req : Request} {s : State} (hi : requestOf i = some req)
    (h : s.exSt = .idle) (hr : refusalOf req = none) : exec i s = .next (s.accept (req.frame s.cfg)) := by
  cases i with
  | byteRead _ _ | byteWrite _ _ | forceOn _ | forceOff _ | exch _ =>
    cases hi
    exact submit_accepted h hr
  | _ => cases hi

/-- R63: a byte-write of at most 255 data bytes is not refused. -/
theorem refusalOf_byteWrite {addr : Addr16} {data : Bytes} (h : data.length ≤ 255) :
    refusalOf (.byteWrite addr data) = none := if_pos h

/-- R51 at R55's payload: two address bytes, the length byte and the data. -/
theorem encFrame_byteWrite_length (c : Config) (id : Nat) (hi lo n : Byte) (data : Bytes) :
    (encFrame c id ([hi, lo, n] ++ data)).length = 2 * data.length + 11 := by
  rw [encFrame_length, List.length_append]
  simp only [List.length_cons, List.length_nil]
  omega

/-- Settles O10: the frame of R71 and of R72 has by definition the payload that the statement writes out, and an idle
block accepts it. -/
theorem byteRequestAccepted : Obligations.ByteRequestAccepted := by
  intro addr count data s h
  refine ⟨⟨encFrame_length _ _ _, ?_⟩, fun hd => ⟨encFrame_byteWrite_length _ _ _ _ _ _, ?_⟩⟩
  · exact exec_request_accepted (req := .byteRead addr count) rfl h rfl
  · exact exec_request_accepted (req := .byteWrite addr data) rfl h (refusalOf_byteWrite hd)

/-- Settles O11: as O10, with the two address bytes of R73 and R74 low byte first. -/
theorem forceRequestAccepted : Obligations.ForceRequestAccepted := by
  intro addr s h
  refine ⟨⟨encFrame_length _ _ _, ?_⟩, ⟨encFrame_length _ _ _, ?_⟩⟩
  · exact exec_request_accepted (req := .forceOn addr) rfl h rfl
  · exact exec_request_accepted (req := .forceOff addr) rfl h rfl

end Sys2Proof.Machine
end

section
/-! PROOFS. The decoder's verdicts (spec/41_frame_decode.md): the one-byte responses (R96, R97) and the checksum pair
(R95). -/

namespace Sys2Proof.Machine

/-! ### The first byte -/

/-- R6, first clause. -/
theorem legal_markersDistinct {c : Config} (hc : c.legal = true) :
    c.pStart ≠ c.pAck ∧ c.pStart ≠ c.pNak ∧ c.pAck ≠ c.pNak := by
  simp only [Config.legal, Config.markersDistinct, Bool.and_eq_true, bne_iff_ne, and_assoc] at hc
  obtain ⟨hStartAck, hStartNak, hAckNak, -⟩ := hc
  exact ⟨hStartAck, hStartNak, hAckNak⟩

theorem classifyByte_pAck {c : Config} (hc : c.legal = true) : classifyByte c c.pAck = .ack := by
  obtain ⟨hStartAck, -, -⟩ := legal_markersDistinct hc
  rw [classifyByte, if_neg hStartAck.symm, if_pos rfl]

theorem classifyByte_pNak {c : Config} (hc : c.legal = true) : classifyByte c c.pNak = .nak := by
  obtain ⟨-, hStartNak, hAckNak⟩ := legal_markersDistinct hc
  rw [classifyByte, if_neg hStartNak.symm, if_neg hAckNak.symm, if_pos rfl]

/-- The rows of format RESP_FIRST_BYTE all mean the delivery of the first read's result (log entry 8). -/
theorem exec_respClass_instr (cls : RespClass) (s : State) : exec cls.instr s = firstRead cls s := by
  cases cls <;> rfl

/-- R61: with the first read's result at the front of R126's list, the step runs its class. -/
theorem step_of_first_read {s : State} {w : Nat} {r : RdResult} {rest : List (Nat × RdResult)} {cls : RespClass}
    (hc : s.cfg.legal = true) (hr : s.res = (w, r) :: rest) (hw : s.exWid = some w) (hf : s.firstAnswered = true)
    (hcls : firstClass s.cfg r = some cls) : step s = firstRead cls { s with res := rest } := by
  have hi : firstReadInstr w r s = some cls.instr := by simp [firstReadInstr, hw, hf, hcls]
  rw [← exec_respClass_instr, step, if_pos hc, fetch, hr]
  simp only [fetchResult, hi]

/-- R115: a class whose rule only ends the exchange needs no waiter, so with no other result pending it is done. -/
theorem firstRead_completes {cls : RespClass} {s : State} {x : ExResult} (hf : s.firstAnswered = true) (hr : s.res = [])
    (hx : State.respond cls { s with exWid := none } = State.complete x { s with exWid := none }) :
    firstRead cls s = .next (s.complete x) := by
  have ht : s.answerFirst cls = s.complete x := by
    rw [State.answerFirst, hx]
    exact dispatch_nil hr
  rw [firstRead_answered hf, ht]
  exact finish_done (neededWaiter_of_le le_rfl)

/-- Settles O29: R6 makes each marker its own class, whose rule ends the exchange without a further read. -/
theorem firstByteAckAndNakEndExchange : Obligations.FirstByteAckAndNakEndExchange := by
  intro s w b hc hr hw hf
  refine ⟨?_, ?_⟩
  · rintro rfl
    rw [step_of_first_read hc hr hw hf (congrArg some (classifyByte_pAck hc))]
    exact firstRead_completes hf rfl (State.respond_ack _)
  · rintro rfl
    rw [step_of_first_read hc hr hw hf (congrArg some (classifyByte_pNak hc))]
    exact firstRead_completes hf rfl (State.respond_nak _)

/-! ### The checksum pair -/

/-- R126: past the first byte no response class begins, and a transaction under way goes on. -/
theorem step_goes_on {s : State} {w : Nat} {r : RdResult} {rest : List (Nat × RdResult)} (hc : s.cfg.legal = true)
    (hst : s.exSt ≠ .rxFirst) (hr : s.res = (w, r) :: rest) : step s = .next s.dispatch := by
  have hf : s.firstAnswered = false := by simp [State.firstAnswered, hst]
  have hi : firstReadInstr w r s = none := by simp [firstReadInstr, hf]
  rw [step, if_pos hc, fetch, hr]
  simp only [fetchResult, hi]

/-- R90, R115: where the decoder's rule ends the exchange on the last result, the transaction ends with it. -/
theorem dispatch_completes {s : State} {w : Nat} {r : RdResult} {x : ExResult} (hr : s.res = [(w, r)])
    (hw : s.exWid = some w)
    (hx : State.react r { s with res := [], exWid := none } = some (State.complete x { s with res := [], exWid := none })) :
    s.dispatch = State.complete x { s with res := [] } := by
  have he : State.dispatchEntry w r { s with res := [] } = State.complete x { s with res := [], exWid := none } := by
    rw [State.dispatchEntry, if_pos hw, hx]
  rw [dispatch_cons hr, he]
  exact dispatch_nil rfl

/-- R115, R126: past the first byte, a rule that ends the exchange on the last result ends the step with it. -/
theorem step_completes {s : State} {w : Nat} {r : RdResult} {x : ExResult} (hc : s.cfg.legal = true)
    (hst : s.exSt ≠ .rxFirst) (hr : s.res = [(w, r)]) (hw : s.exWid = some w)
    (hx : State.react r { s with res := [], exWid := none } = some (State.complete x { s with res := [], exWid := none })) :
    step s = .next (State.complete x { s with res := [] }) := by
  rw [step_goes_on hc hst hr, dispatch_completes hr hw hx]

theorem verify_mismatch {ck : Bytes} {s : State} (h : ck ≠ ckRender (ckSum (s.exAcc ++ [s.cfg.pEnd]))) :
    s.verify ck = s.complete (.err (.malformedResponse .m5Cksum)) := if_pos h

theorem verify_badHex {ck : Bytes} {s : State} {e : HexErr} (h : ck = ckRender (ckSum (s.exAcc ++ [s.cfg.pEnd])))
    (hd : hexDecode s.exAcc = .error e) : s.verify ck = s.complete (.err (.malformedResponse .m6BadHex)) := by
  rw [State.verify, if_neg (not_not_intro h), hd, State.raise_eq]

theorem verify_payload {ck : Bytes} {s : State} {p : Bytes} (h : ck = ckRender (ckSum (s.exAcc ++ [s.cfg.pEnd])))
    (hd : hexDecode s.exAcc = .ok p) : s.verify ck = s.complete (.ok p) := by
  rw [State.verify, if_neg (not_not_intro h), hd]

theorem react_cksum_pair {s : State} (h : s.exSt = .rxCksum) (c1 c2 : Byte) :
    s.react (.ok [c1, c2]) = some (s.verify [c1, c2]) := by
  simp only [State.react, h]

theorem react_cksum_failed {s : State} {r : RdResult} (h : s.exSt = .rxCksum)
    (hr : r = .timeout ∨ ∃ reason, r = .closed reason) :
    s.react r = some (s.complete (.err (.malformedResponse .m4ShortCksum))) := by
  rcases hr with rfl | ⟨reason, rfl⟩
  · simp only [State.react, h, State.raise_eq]
  · simp only [State.react, h, State.raise_eq]

/-- Settles O31: in RX_CKSUM each result of the read ends the exchange by the one rule of R95 that covers it, and the
step is that rule. -/
theorem checksumPairDecidesResult : Obligations.ChecksumPairDecidesResult := by
  intro s w r hc hst hr hw done
  have ends {x : ExResult} := step_completes (x := x) hc (by simp [hst]) hr hw
  refine ⟨fun hfail => ends (react_cksum_failed hst hfail), ?_⟩
  rintro c1 c2 rfl
  have pair := react_cksum_pair (s := { s with res := [], exWid := none }) hst c1 c2
  refine ⟨fun hne => ?_, fun heq => ⟨fun e hd => ?_, fun p hd => ?_⟩⟩
  · exact ends (pair.trans (congrArg some (verify_mismatch hne)))
  · exact ends (pair.trans (congrArg some (verify_badHex heq hd)))
  · exact ends (pair.trans (congrArg some (verify_payload heq hd)))

end Sys2Proof.Machine
end

section
/-! PROOFS. The checksum unit (spec/42_checksum_hex.md R100). -/

namespace Sys2Proof

/-- Settles O1: the eight bits of a checksum hold the sum of the bytes over the unbounded integers, cut to the width of a
byte, which is the remainder mod 256. -/
theorem checksumIsSumMod256 : Obligations.ChecksumIsSumMod256 := by
  intro bs
  exact BitVec.toNat_ofNat (bs.map BitVec.toNat).sum 8

end Sys2Proof
end

section
/-! PROOFS. The invariants I1 to I7 over a step (spec/10_state.md R28), and R23 as their consequence. -/

namespace Sys2Proof.Machine

/-! ### What no invariant reads -/

/-- No invariant speaks of the ports, nor of a list of results that is empty. -/
theorem State.Inv.ports {s : State} (h : s.Inv) {res : List (Nat × RdResult)} (hr : res = []) (inp : List Packet)
    (held : List Instr) (out : List Output) : ({ s with res := res, inp := inp, held := held, out := out } : State).Inv :=
  ⟨h.closedEmpty, h.headWaits, h.widsDistinct, h.widsFresh, h.readPending, h.receivingReads, h.accEmpty, h.frameInTx,
    h.queueBound, h.waiterBound, h.accBound, hr⟩

theorem State.Inv.hold {s : State} (h : s.Inv) (i : Instr) : (s.hold i).Inv := h.ports h.settled _ _ _

theorem State.Inv.emit {s : State} (h : s.Inv) (o : Output) : (s.emit o).Inv := h.ports h.settled _ _ _

/-- Between transactions a read that `EX.wid` names is pending, so no first read is answered (R23). -/
theorem State.Inv.firstAnswered {s : State} (h : s.Inv) : s.firstAnswered = false := by
  by_contra hf
  simp only [State.firstAnswered, Bool.and_eq_true, decide_eq_true_eq, Bool.not_eq_false] at hf
  obtain ⟨-, hf⟩ := hf
  cases hw : s.exWid with
  | none => simp [hw] at hf
  | some w =>
    obtain ⟨-, x, hx, hxw, -⟩ := h.readPending w hw
    rw [hw] at hf
    simp only [Bool.not_eq_true', List.any_eq_false] at hf
    exact hf x hx (by simp [hxw])

/-- Outside the states that receive, `EX.wid` names no read (I4). -/
theorem State.Inv.exWid_eq_none {s : State} (h : s.Inv) (hst : s.exSt.receiving = false) : s.exWid = none := by
  cases hw : s.exWid with
  | none => rfl
  | some w => simpa [hst] using (h.readPending w hw).1

/-! ### The operations that dispatch -/

/-- Where the invariants hold inside a transaction, with room for the waiters, they hold once everything is dispatched. -/
theorem State.Mid.dispatch_inv {s : State} (h : s.Mid) (hs : s.headShort) (hrd : s.reads)
    (hb : withinBound s.dispatch.srWaiters.length s.dispatch.cfg.maxWaiters = true) : s.dispatch.Inv := by
  obtain ⟨hm, hh, hr⟩ := h.dispatch hs hrd
  exact hm.inv hh hr hb (dispatch_res s)

/-- Serving the waiters and dispatching what they are given keeps the invariants (R125, R126). -/
theorem State.Mid.settle_inv {s : State} (h : s.Mid) (hrd : s.reads) (hro : s.Roomy) : s.settle.Inv := by
  obtain ⟨hm, hh⟩ := h.satisfy
  have hrd' : s.satisfy.reads := by
    obtain ⟨_, _, _, -, heq, -⟩ := satisfyFrom_spec s.srWaiters s
    rw [State.satisfy, heq]
    exact hrd
  exact hm.dispatch_inv hh hrd' (hro.satisfy.dispatch hm hh hrd').bound

/-- A finished transaction needed no waiter that did not fit, so the bound on the waiters is kept (R122). -/
theorem waiterBound_of_not_needed {s t : State} (hc : t.cfg = s.cfg)
    (hb : withinBound s.srWaiters.length s.cfg.maxWaiters = true) (hn : s.neededWaiter t = false)
    (hroom : s.waitersFull = false → withinBound t.srWaiters.length t.cfg.maxWaiters = true) :
    withinBound t.srWaiters.length t.cfg.maxWaiters = true := by
  cases hf : s.waitersFull with
  | false => exact hroom hf
  | true =>
    have hle : t.srWaiters.length ≤ s.srWaiters.length := by
      by_contra hlt
      rw [neededWaiter_iff.mpr ⟨hf, Nat.lt_of_not_le hlt⟩] at hn
      cases hn
    rw [hc]
    exact withinBound_mono hle hb

/-- R113 keeps the invariants: the accumulator is empty in an idle block. -/
theorem State.Inv.accept {s : State} (h : s.Inv) (hst : s.exSt = .idle) {f : Bytes} (hf : f ≠ []) : (s.accept f).Inv := by
  have hw : s.exWid = none := h.exWid_eq_none (by rw [hst]; rfl)
  refine ⟨h.closedEmpty, h.headWaits, h.widsDistinct, h.widsFresh, fun w hw' => ?_, fun hr => ?_,
    fun _ _ => h.accEmpty (by simp [hst]) (by simp [hst]), by simp [hf], h.queueBound, h.waiterBound, h.accBound, h.settled⟩
  · rw [State.accept_exWid, hw] at hw'
    cases hw'
  · cases hr

/-- A block that has sent its frame has no read of the decoder to lose (I4), so it may begin to receive (R114). -/
theorem State.Inv.beginReceive {s : State} (h : s.Inv) (hst : s.exSt = .tx) :
    ({ s with exFrame := [], exSt := .rxFirst } : State).Mid := by
  have hw : s.exWid = none := h.exWid_eq_none (by rw [hst]; rfl)
  have hm := h.mid
  refine ⟨hm.closedEmpty, hm.ids, hm.fresh, fun w hw' => ?_, fun _ _ => h.accEmpty (by simp [hst]) (by simp [hst]),
    by simp, hm.queueBound, hm.accBound⟩
  cases hw.symm.trans hw'

theorem State.Inv.startDecoding {s : State} (h : s.Inv) (hst : s.exSt = .tx) (hn : s.neededWaiter s.startDecoding = false) :
    s.startDecoding.Inv := by
  obtain ⟨hm, hh, hrd⟩ := (h.beginReceive hst).rx h.headWaits rfl
  refine hm.dispatch_inv hh hrd ?_
  refine waiterBound_of_not_needed (kept_startDecoding s).cfg h.waiterBound hn fun hf => ?_
  exact ((roomy_rx 1 (s := { s with exFrame := [], exSt := .rxFirst }) (waitersFull_eq_false hf)).dispatch hm hh hrd).bound

/-- R114: a transport error ends the exchange, and there is nothing to dispatch. -/
theorem dispatch_transportError {s : State} (hr : s.res = []) (e : TransportErr) :
    State.dispatch (State.raise (.transportError e) { s with exFrame := [] }) = s.complete (.err (.transportError e)) :=
  dispatch_nil hr

/-- The end of an exchange between two transactions keeps the invariants (R115). -/
theorem State.Inv.complete {s : State} (h : s.Inv) (x : ExResult) : (s.complete x).Inv := by
  obtain ⟨hm, hh, hrd⟩ := h.mid.complete h.headWaits x
  exact hm.inv hh hrd h.waiterBound h.settled

theorem State.Inv.push {s : State} (h : s.Inv) {chunk : Bytes} (hcl : s.srClosed = false) (hf : s.chunkFits chunk = true) :
    (State.settle { s with srQ := s.srQ ++ chunk }).Inv := by
  have hm := h.mid
  have hq : withinBound (s.srQ ++ chunk).length s.cfg.queueCap = true := by
    rw [List.length_append]
    exact hf
  exact State.Mid.settle_inv ⟨fun hc => by simp [hcl] at hc, hm.ids, hm.fresh, hm.readPending, hm.accEmpty, hm.frameInTx, hq,
    hm.accBound⟩ h.receivingReads ⟨h.roomy.bound, h.roomy.room⟩

theorem State.Inv.close {s : State} (h : s.Inv) (reason : Option Reason) :
    (State.dispatch { State.failWaiters (fun _ => true) (.closed reason) s with
      srClosed := true, srReason := reason, srQ := [] }).Inv := by
  have hf := h.mid.failWaiters (fun _ => true) (r := .closed reason) (by simp)
  have hw : (State.failWaiters (fun _ => true) (.closed reason) s).srWaiters = [] := by simp
  have hm : ({ State.failWaiters (fun _ => true) (.closed reason) s with
      srClosed := true, srReason := reason, srQ := [] } : State).Mid :=
    ⟨fun _ => ⟨hw, rfl⟩, hf.ids, hf.fresh, hf.readPending, hf.accEmpty, hf.frameInTx,
      withinBound_mono (Nat.zero_le _) hf.queueBound, hf.accBound⟩
  have hs : ({ State.failWaiters (fun _ => true) (.closed reason) s with
      srClosed := true, srReason := reason, srQ := [] } : State).headShort := by
    intro w ws e
    cases hw.symm.trans e
  have hro := h.roomy.failWaiters (fun _ => true) (.closed reason)
  have hro : ({ State.failWaiters (fun _ => true) (.closed reason) s with
      srClosed := true, srReason := reason, srQ := [] } : State).Roomy := ⟨hro.bound, hro.room⟩
  exact hm.dispatch_inv hs h.receivingReads (hro.dispatch hm hs h.receivingReads).bound

theorem State.Inv.advance {s : State} (h : s.Inv) (t : Nat) :
    (State.settle (State.failWaiters (fun w => decide (w.deadline ≤ t)) .timeout { s with now := t })).Inv := by
  have hm : ({ s with now := t } : State).Mid :=
    ⟨h.closedEmpty, h.mid.ids, h.mid.fresh, h.mid.readPending, h.accEmpty, h.frameInTx, h.queueBound, h.accBound⟩
  have hro : ({ s with now := t } : State).Roomy := ⟨h.roomy.bound, h.roomy.room⟩
  exact (hm.failWaiters _ (by simp)).settle_inv h.receivingReads (hro.failWaiters _ _)

theorem State.Inv.read {s : State} (h : s.Inv) {n t : Nat} (hh : s.readHeld n = false) : (s.read n t).dispatch.Inv := by
  have hp : ∀ w, s.exWid = some w → w ∈ s.srWaiters.map Waiter.wid := by
    intro w hw
    obtain ⟨-, x, hx, rfl, -⟩ := h.readPending w hw
    exact List.mem_map_of_mem hx
  obtain ⟨hm, hs, hrd⟩ := h.mid.read h.headWaits h.receivingReads n t
  exact hm.dispatch_inv hs hrd ((h.roomy.read hp n t hh).dispatch hm hs hrd).bound

/-! ### Every operation, and every step -/

theorem ExecTo.inv {i : Instr} {s t : State} (h : s.Inv) (k : ExecTo s i t) : t.Inv := by
  cases k with
  | held _ => exact h.hold _
  | nothing _ _ => exact h
  | answers _ _ _ => exact h.emit _
  | accepted _ hst hf => exact h.accept hst hf
  | sent hst hn => exact h.startDecoding hst hn
  | failed _ => rw [dispatch_transportError h.settled]; exact h.complete _
  | pushed hcl hf => exact h.push hcl hf
  | closed _ => exact h.close _
  | advanced _ => exact h.advance _
  | read hh => exact h.read hh
  | responded cls hf _ => exact absurd (hf.symm.trans h.firstAnswered) (by simp)

/-- Settles O49: a step runs one operation, or lets one wait, on a state that differs from `s` at the ports alone, and each
operation keeps the invariants. -/
theorem stepKeepsInvariants : Obligations.StepKeepsInvariants := by
  intro s t h hstep
  cases step_to hstep with
  | ran hr k => exact ExecTo.inv (h.ports (hr h.settled) _ _ _) k
  | wentOn hr => exact absurd h.settled hr
  | waits _ => exact State.Inv.hold (h.ports h.settled _ _ _) _
  | idle _ => exact h

/-- Settles O56: I4 in both directions, in the state that the step leaves. -/
theorem stepKeepsDecoderReading : Obligations.StepKeepsDecoderReading := by
  intro s t h hstep
  have ht := stepKeepsInvariants s t h hstep
  refine ⟨⟨fun hw => ?_, ht.receivingReads⟩, fun w hw => (ht.readPending w hw).2⟩
  obtain ⟨w, hw⟩ := Option.isSome_iff_exists.mp hw
  exact (ht.readPending w hw).1

end Sys2Proof.Machine
end

section
/-! PROOFS. The order of the outputs over a step: request frames and exchange results alternate (spec/43_exchange.md R110,
R118), and no read is answered twice (spec/44_stream_reader.md R120). -/

namespace Sys2Proof.Machine

/-- Everything a read can do (R124): it fails on a closed reader, it is served, or it waits. -/
theorem read_cases (n t : Nat) (s : State) :
    s.read n t = { s with srNextWid := s.srNextWid + 1, res := s.res ++ [(s.srNextWid, .closed s.srReason)] } ∨
    s.read n t = { s with
      srNextWid := s.srNextWid + 1
      res := s.res ++ [(s.srNextWid, .ok (s.srQ.take n))]
      srQ := s.srQ.drop n } ∨
    s.read n t = { s with
      srNextWid := s.srNextWid + 1
      srWaiters := s.srWaiters ++ [⟨s.srNextWid, n, s.now + t⟩] } := by
  by_cases hc : s.srClosed = true
  · exact .inl (read_closed hc)
  have hc : s.srClosed = false := by simpa using hc
  by_cases hn : n ≤ s.srQ.length
  · exact .inr (.inl (read_served hc hn))
  · exact .inr (.inr (read_waits hc (Nat.lt_of_not_le hn)))

/-! ### The exchanges are serial -/

theorem exchangeOrder_append (b : Bool) (xs ys : List Output) :
    exchangeOrder b (xs ++ ys) = (exchangeOrder b xs).bind fun b' => exchangeOrder b' ys := by
  induction xs generalizing b with
  | nil => rfl
  | cons o xs ih =>
    cases o with
    | txWrite f => cases b <;> simp [exchangeOrder, ih]
    | exchResp x => cases b <;> simp [exchangeOrder, ih]
    | _ => simp [exchangeOrder, ih]

/-- One more output, of a port that may speak now. -/
theorem State.serial.output {s t : State} (h : s.serial) {o : Output} (ho : t.out = s.out ++ [o])
    (hb : exchangeOrder s.busy [o] = some t.busy) : t.serial := by
  rw [State.serial, ho, exchangeOrder_append, h]
  exact hb

/-- The order of the outputs depends on what was emitted and on whether an exchange is in flight, and on nothing else. -/
theorem State.serial.congr {s t : State} (h : s.serial) (ho : t.out = s.out) (hb : t.busy = s.busy) : t.serial := by
  rw [State.serial, ho, hb]
  exact h

/-- The result of an exchange goes out where one is in flight (R115). -/
theorem State.serial.complete {s : State} (h : s.serial) (hst : s.exSt ≠ .idle) (x : ExResult) : (s.complete x).serial := by
  have hb : s.busy = true := by simpa [State.busy] using hst
  exact h.output (State.complete_out x s) (by rw [hb]; rfl)

theorem State.serial.read {s : State} (h : s.serial) (n t : Nat) : (s.read n t).serial := by
  rcases read_cases n t s with e | e | e
  all_goals
    rw [e]
    exact h

/-- The decoder reads on in a further state of the same exchange. -/
theorem State.serial.readOn {s t : State} (h : s.serial) (hst : s.exSt ≠ .idle) (ho : t.out = s.out) (ht : t.exSt ≠ .idle)
    (n : Nat) : (t.rx n).serial := by
  have ht : t.serial := h.congr ho (by simp [State.busy, hst, ht])
  exact ht.read n t.cfg.readTimeout

theorem receiving_ne_idle {st : ExSt} (h : st.receiving = true) : st ≠ .idle := by
  rintro rfl
  cases h

theorem State.serial.react {s t : State} {r : RdResult} (h : s.serial) (ht : s.react r = some t) : t.serial := by
  obtain ⟨hrec, hcases⟩ := react_cases ht
  have hst := receiving_ne_idle hrec
  rcases hcases with ⟨acc, st, bs, -, -, -, hnext, rfl⟩ | ⟨x, rfl⟩
  · refine h.readOn hst (t := { s with exAcc := acc, exSt := st }) rfl ?_ _
    rcases hnext with ⟨rfl, -⟩ | ⟨rfl, -⟩
    · exact ExSt.noConfusion
    · exact ExSt.noConfusion
  · exact h.complete hst x

theorem State.serial.dispatchEntry {s : State} (h : s.serial) (w : Nat) (r : RdResult) :
    (State.dispatchEntry w r s).serial := by
  have hemit : (s.emit (.rdResp w r)).serial := h.output (State.emit_out _ _) rfl
  unfold State.dispatchEntry
  split
  · split
    · exact State.serial.react (s := { s with exWid := none }) h ‹_›
    · exact hemit
  · exact hemit

theorem State.serial.dispatch {s : State} (h : s.serial) : s.dispatch.serial :=
  dispatch_induct (P := State.serial) (fun t w r rest _ ht => State.serial.dispatchEntry (s := { t with res := rest }) ht w r) s h

theorem State.serial.settle {s : State} (h : s.serial) : s.settle.serial := by
  obtain ⟨_, _, _, -, heq, -⟩ := satisfyFrom_spec s.srWaiters s
  have hs : s.satisfy.serial := by
    rw [State.satisfy, heq]
    exact h
  exact hs.dispatch

theorem State.serial.answerFirst {s : State} (h : s.serial) (hf : s.firstAnswered = true) (cls : RespClass) :
    (s.answerFirst cls).serial := by
  have hst : s.exSt ≠ .idle := by
    simp only [State.firstAnswered, Bool.and_eq_true, decide_eq_true_eq] at hf
    simp [hf.1]
  refine State.serial.dispatch ?_
  cases cls with
  | data => exact h.readOn hst (t := { s with exWid := none, exAcc := [], exSt := .rxAccum }) rfl ExSt.noConfusion 1
  | ack | nak | other => exact State.serial.complete (s := { s with exWid := none }) h hst _

theorem ExecTo.serial {i : Instr} {s t : State} (h : s.serial) (k : ExecTo s i t) : t.serial := by
  cases k with
  | held _ => exact h
  | nothing _ _ => exact h
  | answers _ ho _ => exact h.output (State.emit_out _ _) ho
  | accepted _ hst _ => exact h.output (State.accept_out _ _) (by simp [State.busy, hst, exchangeOrder])
  | sent hst _ =>
    exact (h.readOn (by simp [hst]) (t := { s with exFrame := [], exSt := .rxFirst }) rfl ExSt.noConfusion 1).dispatch
  | failed hst => exact (State.serial.complete (s := { s with exFrame := [] }) h (by simp [hst]) _).dispatch
  | pushed _ _ => exact State.serial.settle (s := { s with srQ := _ }) h
  | closed _ => exact State.serial.dispatch (h.congr rfl rfl)
  | advanced _ => exact State.serial.settle (h.congr rfl rfl)
  | read _ => exact (h.read _ _).dispatch
  | responded cls hf _ => exact h.answerFirst hf cls

/-- Settles O50: each operation emits a request frame only out of IDLE, which it leaves, and an exchange result only
outside it, and returns to it. -/
theorem stepKeepsExchangesSerial : Obligations.StepKeepsExchangesSerial := by
  intro s t h hstep
  cases step_to hstep with
  | ran _ k =>
    refine ExecTo.serial ?_ k
    exact h
  | wentOn _ => exact h.dispatch
  | waits _ => exact h
  | idle _ => exact h

/-! ### No read is answered twice -/

/-- The reads that have been given an identifier and are accounted for: those answered on the read port, those pending, and
those whose result is still to be dispatched. -/
def State.issuedWids (s : State) : List Nat := s.out.filterMap Output.rdWid ++ s.openWids

/-- `State.answeredOnce` at any point of a transaction: no identifier is accounted for twice, and none is to come. -/
structure State.WidsOnce (s : State) : Prop where
  nodup : s.issuedWids.Nodup
  fresh : ∀ w ∈ s.issuedWids, w < s.srNextWid

/-- Identifiers that change their place, or are dropped, are still accounted for at most once. -/
theorem State.WidsOnce.subperm {s t : State} (h : s.WidsOnce) (hp : t.issuedWids.Subperm s.issuedWids)
    (hn : s.srNextWid ≤ t.srNextWid) : t.WidsOnce := by
  obtain ⟨l, hl, hsub⟩ := hp
  exact ⟨hl.nodup_iff.mp (h.nodup.sublist hsub), fun w hw => (h.fresh w (hsub.subset (hl.mem_iff.mpr hw))).trans_le hn⟩

/-- A further read takes the next identifier. -/
theorem State.WidsOnce.issue {s t : State} (h : s.WidsOnce) (hp : t.issuedWids.Perm (s.srNextWid :: s.issuedWids))
    (hn : t.srNextWid = s.srNextWid + 1) : t.WidsOnce := by
  refine ⟨hp.nodup_iff.mpr (List.nodup_cons.mpr ⟨fun hm => lt_irrefl _ (h.fresh _ hm), h.nodup⟩), fun w hw => ?_⟩
  rw [hn]
  rcases List.mem_cons.mp (hp.mem_iff.mp hw) with rfl | hm
  · exact Nat.lt_succ_self _
  · exact Nat.lt_succ_of_lt (h.fresh w hm)

theorem State.WidsOnce.read {s : State} (h : s.WidsOnce) (n t : Nat) : (s.read n t).WidsOnce := by
  rcases read_cases n t s with e | e | e
  all_goals
    rw [e]
    refine h.issue (List.perm_iff_count.mpr fun w => ?_) rfl
    simp only [State.issuedWids, State.openWids, List.map_append, List.map_cons, List.map_nil, List.count_append,
      List.count_cons, List.count_nil]
    omega

theorem State.WidsOnce.rx {s : State} (h : s.WidsOnce) (n : Nat) : (s.rx n).WidsOnce := by
  obtain ⟨hn, hf⟩ := h.read n s.cfg.readTimeout
  exact ⟨hn, hf⟩

/-- What goes out on no read port answers no read. -/
theorem State.WidsOnce.output {s t : State} (h : s.WidsOnce) {o : Output} (ho : t.out = s.out ++ [o])
    (hw : Output.rdWid o = none) (hopen : t.openWids = s.openWids) (hn : t.srNextWid = s.srNextWid) : t.WidsOnce := by
  refine h.subperm (List.Perm.of_eq ?_).subperm hn.ge
  simp [State.issuedWids, ho, hw, hopen]

theorem State.WidsOnce.complete {s : State} (h : s.WidsOnce) (x : ExResult) : (s.complete x).WidsOnce :=
  h.output (State.complete_out x s) rfl rfl rfl

theorem State.WidsOnce.react {s t : State} {r : RdResult} (h : s.WidsOnce) (ht : s.react r = some t) : t.WidsOnce := by
  obtain ⟨-, ⟨acc, st, -, -, -, -, -, rfl⟩ | ⟨x, rfl⟩⟩ := react_cases ht
  · exact State.WidsOnce.rx (s := { s with exAcc := acc, exSt := st }) ⟨h.nodup, h.fresh⟩ _
  · exact h.complete x

/-- An entry of the list answers its read: on the read port, or to the decoder, which accounts for it no longer. -/
theorem State.WidsOnce.dispatchEntry {s : State} (h : s.WidsOnce) {w : Nat} {r : RdResult} {rest : List (Nat × RdResult)}
    (hr : s.res = (w, r) :: rest) : (State.dispatchEntry w r { s with res := rest }).WidsOnce := by
  have hemit : (State.emit (.rdResp w r) { s with res := rest }).WidsOnce := by
    refine h.subperm (List.Perm.subperm (List.perm_iff_count.mpr fun x => ?_)) le_rfl
    simp only [State.issuedWids, State.openWids, State.emit, hr, List.filterMap_append, List.filterMap_cons, Output.rdWid,
      List.filterMap_nil, List.map_cons, List.count_append, List.count_cons, List.count_nil]
    omega
  have hdrop : ({ s with res := rest, exWid := none } : State).WidsOnce := by
    refine h.subperm (List.Sublist.subperm ?_) le_rfl
    simp only [State.issuedWids, State.openWids, hr, List.map_cons]
    exact ((List.sublist_cons_self _ _).append_left _).append_left _
  unfold State.dispatchEntry
  split
  · split
    · exact hdrop.react ‹_›
    · exact hemit
  · exact hemit

theorem State.WidsOnce.dispatch {s : State} (h : s.WidsOnce) : s.dispatch.WidsOnce :=
  dispatch_induct (P := State.WidsOnce) (fun _ _ _ _ hr ht => ht.dispatchEntry hr) s h

theorem State.WidsOnce.settle {s : State} (h : s.WidsOnce) : s.settle.WidsOnce := by
  obtain ⟨served, rest, results, hws, heq, hids, -⟩ := satisfyFrom_spec s.srWaiters s
  refine State.WidsOnce.dispatch (h.subperm (List.Perm.subperm (List.perm_iff_count.mpr fun w => ?_)) (kept_satisfy s).nextWid)
  rw [State.satisfy, heq]
  simp only [State.issuedWids, State.openWids, hws, List.map_append, hids, List.count_append]
  omega

theorem State.WidsOnce.failWaiters {s : State} (h : s.WidsOnce) (p : Waiter → Bool) (r : RdResult) :
    (s.failWaiters p r).WidsOnce := by
  refine h.subperm (List.Perm.subperm (List.perm_iff_count.mpr fun w => ?_)) le_rfl
  have hf := ((List.filter_append_perm p s.srWaiters).map Waiter.wid).count_eq w
  have hres : ((s.srWaiters.filter p).map fun w => (w.wid, r)).map Prod.fst = (s.srWaiters.filter p).map Waiter.wid :=
    List.map_map
  simp only [List.map_append, List.count_append] at hf
  simp only [State.issuedWids, State.openWids, State.failWaiters, List.map_append, hres, List.count_append]
  omega

theorem State.WidsOnce.answerFirst {s : State} (h : s.WidsOnce) (cls : RespClass) : (s.answerFirst cls).WidsOnce := by
  refine State.WidsOnce.dispatch ?_
  cases cls with
  | data => exact State.WidsOnce.rx (s := { s with exWid := none, exAcc := [], exSt := .rxAccum }) ⟨h.nodup, h.fresh⟩ 1
  | ack | nak | other => exact State.WidsOnce.complete (s := { s with exWid := none }) ⟨h.nodup, h.fresh⟩ _

theorem ExecTo.widsOnce {i : Instr} {s t : State} (h : s.WidsOnce) (k : ExecTo s i t) : t.WidsOnce := by
  cases k with
  | held _ => exact ⟨h.nodup, h.fresh⟩
  | nothing _ _ => exact h
  | answers _ _ hw => exact h.output (State.emit_out _ _) hw rfl rfl
  | accepted _ _ _ => exact h.output (State.accept_out _ _) rfl rfl rfl
  | sent _ _ => exact (State.WidsOnce.rx (s := { s with exFrame := [], exSt := .rxFirst }) ⟨h.nodup, h.fresh⟩ 1).dispatch
  | failed _ => exact (State.WidsOnce.complete (s := { s with exFrame := [] }) ⟨h.nodup, h.fresh⟩ _).dispatch
  | pushed _ _ => exact State.WidsOnce.settle ⟨h.nodup, h.fresh⟩
  | closed _ =>
    obtain ⟨hn, hf⟩ := h.failWaiters (fun _ => true) (.closed _)
    exact State.WidsOnce.dispatch ⟨hn, hf⟩
  | @advanced τ _ =>
    exact (State.WidsOnce.failWaiters (s := { s with now := τ }) ⟨h.nodup, h.fresh⟩ _ _).settle
  | read _ => exact (h.read _ _).dispatch
  | responded cls _ _ => exact h.answerFirst cls

/-- Between transactions the accounted reads are the answered and the pending ones (I3). -/
theorem State.answeredOnce.widsOnce {s : State} (h : s.answeredOnce) (hi : s.Inv) : s.WidsOnce := by
  have hopen : s.openWids = s.srWaiters.map Waiter.wid := by simp [State.openWids, hi.settled]
  refine ⟨by rw [State.issuedWids, hopen]; exact h.1, fun w hw => ?_⟩
  rw [State.issuedWids, List.mem_append] at hw
  rcases hw with hw | hw
  · exact h.2 w hw
  · exact hi.mid.fresh w hw

theorem State.WidsOnce.answeredOnce {s : State} (h : s.WidsOnce) : s.answeredOnce := by
  refine ⟨h.nodup.sublist ((List.sublist_append_left _ _).append_left _), fun w hw => h.fresh w ?_⟩
  exact List.mem_append_left _ hw

/-- Settles O51: every identifier stands at one place only, as an answer, as a pending read or as a result on its way, and
each operation only moves identifiers, drops them or takes the next one. -/
theorem stepKeepsAnsweredOnce : Obligations.StepKeepsAnsweredOnce := by
  intro s t hi h hstep
  have hs := h.widsOnce hi
  refine State.WidsOnce.answeredOnce ?_
  cases step_to hstep with
  | ran hr k =>
    refine ExecTo.widsOnce ?_ k
    refine hs.subperm (List.Perm.of_eq ?_).subperm le_rfl
    simp [State.issuedWids, State.openWids, hr hi.settled, hi.settled]
  | wentOn _ => exact hs.dispatch
  | waits _ => exact ⟨hs.nodup, hs.fresh⟩
  | idle _ => exact hs

/-! ### Reset -/

theorem withinBound_zero (b : Option Nat) : withinBound 0 b = true := by
  cases b <;> simp [withinBound]

/-- Settles O48: the reset machine has no read, no byte buffered, nothing emitted and no exchange in flight. -/
theorem resetMeetsInvariants : Obligations.ResetMeetsInvariants := by
  intro c
  have hinv : (State.resetWith c).Inv :=
    { closedEmpty := fun _ => ⟨rfl, rfl⟩
      headWaits := fun w ws h => by cases h
      widsDistinct := List.nodup_nil
      widsFresh := fun w h => by cases h
      readPending := fun w h => by cases h
      receivingReads := fun h => by cases h
      accEmpty := fun _ _ => rfl
      frameInTx := by simp [State.resetWith]
      queueBound := withinBound_zero _
      waiterBound := withinBound_zero _
      accBound := withinBound_zero _
      settled := rfl }
  exact ⟨hinv, rfl, List.nodup_nil, fun w h => by cases h⟩

end Sys2Proof.Machine
end

section
/-! PROOFS. The pure units: the checksum (spec/42_checksum_hex.md R101, R105) and the hex units (R103, R104, R106), and
their port operations. -/

namespace Sys2Proof

/-! ### The checksum -/

@[simp] theorem ckSum_singleton (b : Byte) : ckSum [b] = b := by
  simp [ckSum]

theorem ckSum_perm {a b : Bytes} (h : a.Perm b) : ckSum a = ckSum b := by
  rw [ckSum, ckSum, (h.map BitVec.toNat).sum_eq]

/-- Settles O2: the checksum is additive, and the sum of the bytes does not depend on their order. -/
theorem checksumLaws : Obligations.ChecksumLaws := by
  refine ⟨fun bs b => ?_, ckSum_append, fun a b => ckSum_perm, fun c id p => ?_⟩
  · rw [ckSum_append, ckSum_singleton]
  · rw [ckSum_append, ckSum_append, ckSum_singleton, ckSum_singleton, cmdByte]

/-! ### The characters of a byte -/

theorem hexUp_hiNibble (v : Byte) : hexUp (hiNibble v) = hexUpTable.getD (v.toNat / 16) 0 := by
  revert v; decide

theorem hexUp_loNibble (v : Byte) : hexUp (loNibble v) = hexUpTable.getD (v.toNat % 16) 0 := by
  revert v; decide

/-- Settles O3: the nibbles of a byte are its quotient and its remainder by 16. -/
theorem renderingIsTwoUppercaseChars : Obligations.RenderingIsTwoUppercaseChars :=
  fun v => ⟨by rw [ckRender, hexUp_hiNibble, hexUp_loNibble], ckRender_length v⟩

/-- R103: the two characters of the byte at `i` stand at `2 i` and `2 i + 1`. -/
theorem hexEncode_getD {p : Bytes} {i : Nat} (hi : i < p.length) :
    (hexEncode p).getD (2 * i) 0 = hexUp (hiNibble (p.getD i 0)) ∧
      (hexEncode p).getD (2 * i + 1) 0 = hexUp (loNibble (p.getD i 0)) := by
  induction p generalizing i with
  | nil => cases hi
  | cons b p ih =>
    cases i with
    | zero => exact ⟨rfl, rfl⟩
    | succ i => exact ih (Nat.lt_of_succ_lt_succ hi)

/-- Settles O4: by induction over the bytes, each of which gives its two characters. -/
theorem hexEncodeUppercasePairs : Obligations.HexEncodeUppercasePairs := by
  intro p
  refine ⟨hexEncode_length p, fun ch => hexEncode_mem, fun i hi => ?_⟩
  obtain ⟨hhi, hlo⟩ := hexEncode_getD hi
  exact ⟨hhi.trans (hexUp_hiNibble _), hlo.trans (hexUp_loNibble _)⟩

/-! ### The value of a character -/

theorem hexUp_injective {m n : Nibble} (h : hexUp m = hexUp n) : m = n := by
  simpa using congrArg nib h

/-- R104: a byte has a value exactly where its uppercase form is in the table, and the value is its place there. -/
theorem nib_map_hexUp (ch : Byte) :
    (nib ch).map hexUp = if Machine.upperHex ch ∈ hexUpTable then some (Machine.upperHex ch) else none := by
  revert ch; decide

theorem nib_eq_some_iff {ch : Byte} {n : Nibble} : nib ch = some n ↔ Machine.upperHex ch = hexUp n := by
  have hmap := nib_map_hexUp ch
  constructor
  · intro h
    rw [h, Option.map_some] at hmap
    split at hmap
    · exact (Option.some.inj hmap).symm
    · cases hmap
  · intro h
    rw [h, if_pos (hexUp_mem n), Option.map_eq_some_iff] at hmap
    obtain ⟨m, hm, hmn⟩ := hmap
    rw [hm, hexUp_injective hmn]

/-! ### One pair of the decoder's loop -/

theorem hexPairs_pair {hi lo : Byte} {h l : Nibble} (hh : nib hi = some h) (hl : nib lo = some l) (i : Nat) (rest : Bytes) :
    hexPairs i (hi :: lo :: rest) = (hexPairs (i + 2) rest).map fun out => (h ++ l : Byte) :: out := by
  rw [hexPairs, hh, hl]
  cases hexPairs (i + 2) rest <;> rfl

theorem hexPairs_bad_hi {hi : Byte} (hh : nib hi = none) (lo : Byte) (i : Nat) (rest : Bytes) :
    hexPairs i (hi :: lo :: rest) = .error (.badChar i) := by
  rw [hexPairs, hh]

theorem hexPairs_bad_lo {hi lo : Byte} {h : Nibble} (hh : nib hi = some h) (hl : nib lo = none) (i : Nat) (rest : Bytes) :
    hexPairs i (hi :: lo :: rest) = .error (.badChar (i + 1)) := by
  rw [hexPairs, hh, hl]

theorem except_map_eq_ok {ε α β : Type} {x : Except ε α} {f : α → β} {y : β} :
    x.map f = .ok y ↔ ∃ a, x = .ok a ∧ f a = y := by
  cases x <;> simp [Except.map]

theorem except_map_eq_error {ε α β : Type} {x : Except ε α} {f : α → β} {e : ε} :
    x.map f = .error e ↔ x = .error e := by
  cases x <;> simp [Except.map]

/-- An error of the loop names a character it has still to read. -/
theorem le_of_hexPairs_badChar {s : Bytes} {k m : Nat} (h : hexPairs k s = .error (.badChar m)) : k ≤ m := by
  induction s using List.twoStepInduction generalizing k with
  | nil => cases h
  | singleton ch => cases h
  | cons_cons hi lo rest ih _ =>
    cases hh : nib hi with
    | none => rw [hexPairs_bad_hi hh] at h; cases h; exact le_rfl
    | some a =>
      cases hl : nib lo with
      | none => rw [hexPairs_bad_lo hh hl] at h; cases h; exact Nat.le_succ _
      | some b =>
        rw [hexPairs_pair hh hl, except_map_eq_error] at h
        exact (Nat.le_add_right k 2).trans (ih h)

/-- R104: the loop, from the index `k`, fails at the first character that is no hex. -/
theorem hexPairs_eq_badChar_iff {s : Bytes} (hs : s.length % 2 = 0) (k i : Nat) :
    hexPairs k s = .error (.badChar (k + i)) ↔
      i < s.length ∧ nib (s.getD i 0) = none ∧ ∀ j < i, nib (s.getD j 0) ≠ none := by
  induction s using List.twoStepInduction generalizing k i with
  | nil => simp [hexPairs]
  | singleton ch => cases hs
  | cons_cons hi lo rest ih _ =>
    have hrest : rest.length % 2 = 0 := by simp only [List.length_cons] at hs; omega
    cases hh : nib hi with
    | none =>
      rw [hexPairs_bad_hi hh]
      cases i with
      | zero => simp [hh]
      | succ i => simpa using fun _ _ => ⟨0, Nat.zero_le i, hh⟩
    | some a =>
      cases hl : nib lo with
      | none =>
        rw [hexPairs_bad_lo hh hl]
        match i with
        | 0 => simp [hh]
        | 1 => simp [hh, hl]
        | i + 2 => simpa using fun _ _ => ⟨1, by omega, hl⟩
      | some b =>
        rw [hexPairs_pair hh hl, except_map_eq_error]
        match i with
        | 0 => simpa [hh] using fun e => absurd (le_of_hexPairs_badChar e) (by omega)
        | 1 => simpa [hl] using fun e => absurd (le_of_hexPairs_badChar e) (by omega)
        | i + 2 =>
          rw [show k + (i + 2) = k + 2 + i by omega, ih hrest]
          simp only [List.length_cons, List.getD_cons_succ, Nat.add_lt_add_iff_right]
          refine and_congr_right fun _ => and_congr_right fun _ => ⟨fun hj j hlt => ?_, fun hj j hlt => hj (j + 2) (by omega)⟩
          match j with
          | 0 => simp [hh]
          | 1 => simp [hl]
          | j + 2 => exact hj j (by omega)

theorem toNat_nibbles (h l : Nibble) : (h ++ l : Byte).toNat = 16 * h.toNat + l.toNat := by
  revert h l; decide

/-- R104: where every character is hex the loop gives one byte a pair, the first character its high nibble. -/
theorem hexPairs_eq_ok {s : Bytes} (hs : s.length % 2 = 0) (hall : ∀ ch ∈ s, nib ch ≠ none) (k : Nat) :
    ∃ out, hexPairs k s = .ok out ∧ out.length = s.length / 2 ∧
      ∀ j < s.length / 2, ∃ hi lo, nib (s.getD (2 * j) 0) = some hi ∧ nib (s.getD (2 * j + 1) 0) = some lo ∧
        (out.getD j 0).toNat = 16 * hi.toNat + lo.toNat := by
  induction s using List.twoStepInduction generalizing k with
  | nil => exact ⟨[], rfl, rfl, fun j hj => by cases hj⟩
  | singleton ch => cases hs
  | cons_cons hi lo rest ih _ =>
    have hrest : rest.length % 2 = 0 := by simp only [List.length_cons] at hs; omega
    obtain ⟨out, hout, hlen, hget⟩ := ih hrest (fun ch hch => hall ch (by simp [hch])) (k + 2)
    obtain ⟨h, hh⟩ := Option.ne_none_iff_exists'.mp (hall hi (by simp))
    obtain ⟨l, hl⟩ := Option.ne_none_iff_exists'.mp (hall lo (by simp))
    refine ⟨(h ++ l : Byte) :: out, by rw [hexPairs_pair hh hl, hout]; rfl, ?_, fun j hj => ?_⟩
    · simp only [List.length_cons, hlen]
      omega
    · cases j with
      | zero => exact ⟨h, l, hh, hl, toNat_nibbles h l⟩
      | succ j => exact hget j (by simp only [List.length_cons] at hj; omega)

/-- R106: what the loop has read are the uppercase characters of the bytes it gives. -/
theorem hexEncode_of_hexPairs {s p : Bytes} (hs : s.length % 2 = 0) {k : Nat} (h : hexPairs k s = .ok p) :
    hexEncode p = s.map Machine.upperHex := by
  induction s using List.twoStepInduction generalizing k p with
  | nil => cases h; rfl
  | singleton ch => cases hs
  | cons_cons hi lo rest ih _ =>
    have hrest : rest.length % 2 = 0 := by simp only [List.length_cons] at hs; omega
    cases hh : nib hi with
    | none => rw [hexPairs_bad_hi hh] at h; cases h
    | some a =>
      cases hl : nib lo with
      | none => rw [hexPairs_bad_lo hh hl] at h; cases h
      | some b =>
        rw [hexPairs_pair hh hl, except_map_eq_ok] at h
        obtain ⟨out, hout, rfl⟩ := h
        simp [ih hrest hout, nib_eq_some_iff.mp hh, nib_eq_some_iff.mp hl]

/-! ### The hex decoder -/

theorem hexDecode_odd {s : Bytes} (h : s.length % 2 = 1) : hexDecode s = .error .oddLength := if_pos h

theorem hexDecode_even {s : Bytes} (h : s.length % 2 = 0) : hexDecode s = hexPairs 0 s := if_neg (by omega)

/-- Settles O5: an even number of characters is decoded by the loop over the pairs, from index 0. -/
theorem hexDecodeByRule : Obligations.HexDecodeByRule := by
  refine ⟨fun ch n => nib_eq_some_iff, fun s => ⟨hexDecode_odd, fun hs i => ?_, fun hs hall => ?_⟩⟩
  · rw [hexDecode_even hs]
    simpa using hexPairs_eq_badChar_iff hs 0 i
  · rw [hexDecode_even hs]
    exact hexPairs_eq_ok hs hall 0

/-- Settles O6: the encoder's characters are decoded pair by pair, and what is decoded is an even number of characters whose
values are those of the encoder's. -/
theorem hexRoundTrip : Obligations.HexRoundTrip := by
  refine ⟨hexDecode_hexEncode, fun s p h => ?_⟩
  rcases Nat.mod_two_eq_zero_or_one s.length with hs | hs
  · rw [hexDecode_even hs] at h
    exact hexEncode_of_hexPairs hs h
  · rw [hexDecode_odd hs] at h
    cases h

/-! ### The units at their ports -/

/-- Settles O7: each unit's operation is the emission of its result. -/
theorem pureUnitsOnlyAnswer : Obligations.PureUnitsOnlyAnswer := by
  intro bs s
  have hexdec : Machine.exec (.hexdec bs) s = .next (s.emit (.hexdec (Machine.hexdecResult bs))) := rfl
  refine ⟨rfl, rfl, fun p hp => ?_, fun e he => ?_⟩
  · rw [hexdec, Machine.hexdecResult, hp]
    rfl
  · rw [hexdec, Machine.hexdecResult, he]
    rfl

end Sys2Proof
end

section
/-! PROOFS. The legal configurations (spec/00_scope.md R6), the layout of a request frame (spec/30_encoding.md R51,
spec/40_frame_encode.md R70) and the numeric codes of the results (spec/60_exceptions.md R141). -/

namespace Sys2Proof

/-! ### Legal configurations -/

theorem boundAtLeast_iff {k : Nat} {b : Option Nat} : boundAtLeast k b = true ↔ ∀ m, b = some m → k ≤ m := by
  cases b <;> simp [boundAtLeast]

theorem legal_iff {c : Config} : c.legal = true ↔
    (c.pStart ≠ c.pAck ∧ c.pStart ≠ c.pNak ∧ c.pAck ≠ c.pNak) ∧
    (c.pEnd ∉ hexAlpha ∧ ¬(0x30 ≤ c.pEnd.toNat ∧ c.pEnd.toNat ≤ 0x39)) ∧
    ([c.cmdBR, c.cmdBW, c.cmdFON, c.cmdFOFF].Nodup ∧ ∀ id ∈ [c.cmdBR, c.cmdBW, c.cmdFON, c.cmdFOFF], id ≤ 9) ∧
    (∀ m, c.queueCap = some m → 2 ≤ m) ∧ (∀ m, c.maxWaiters = some m → 1 ≤ m) := by
  rw [← boundAtLeast_iff, ← boundAtLeast_iff]
  simp only [Config.legal, Config.markersDistinct, Config.endOutsideHex, Config.commandsDistinct, Bool.and_eq_true,
    bne_iff_ne, Bool.not_eq_true', ← Bool.not_eq_true, List.contains_iff_mem, decide_eq_true_eq, List.all_eq_true, and_assoc]

/-- Settles O24: `Config.legal` computes R6's conditions, and a step tests it before anything else. -/
theorem illegalConfigurationRefused : Obligations.IllegalConfigurationRefused := by
  intro s
  refine ⟨fun h => ?_, legal_iff⟩
  rw [Machine.step, if_neg (by simp [h])]

/-- R6: the end marker is none of the encoder's characters. -/
theorem ne_pEnd_of_mem_hexUpTable {c : Config} (hc : c.legal = true) {ch : Byte} (h : ch ∈ hexUpTable) : ch ≠ c.pEnd := by
  rintro rfl
  obtain ⟨-, ⟨hEnd, -⟩, -⟩ := legal_iff.mp hc
  exact hEnd (List.mem_append_left _ h)

theorem commandId_le {c : Config} (hc : c.legal = true) (cmd : Command) : c.commandId cmd ≤ 9 := by
  obtain ⟨-, -, ⟨-, hle⟩, -⟩ := legal_iff.mp hc
  cases cmd
  all_goals exact hle _ (by simp [Config.commandId])

/-- R6, R60: the four commands have four identifiers. -/
theorem commandId_injective {c : Config} (hc : c.legal = true) {x y : Command} (h : c.commandId x = c.commandId y) :
    x = y := by
  obtain ⟨-, -, ⟨hnd, -⟩, -⟩ := legal_iff.mp hc
  have hall (cmd : Command) : cmd ∈ [Command.byteRead, .byteWrite, .forceOn, .forceOff] := by cases cmd <;> simp
  exact List.inj_on_of_nodup_map (f := c.commandId) (l := [.byteRead, .byteWrite, .forceOn, .forceOff]) hnd
    (hall x) (hall y) h

/-! ### Request frames -/

/-- R57: an identifier in 0..9 is one decimal digit. -/
theorem cmdByte_mem_hexUpTable {id : Nat} (h : id ≤ 9) : cmdByte id ∈ hexUpTable := by
  revert id; decide

theorem cmdByte_injective {a b : Nat} (ha : a ≤ 9) (hb : b ≤ 9) (h : cmdByte a = cmdByte b) : a = b := by
  have := congrArg BitVec.toNat h
  simp only [cmdByte, BitVec.toNat_ofNat] at this
  omega

theorem ckRender_mem {v ch : Byte} (h : ch ∈ ckRender v) : ch ∈ hexUpTable := by
  simp only [ckRender, List.mem_cons, List.not_mem_nil, or_false] at h
  rcases h with rfl | rfl
  · exact hexUp_mem _
  · exact hexUp_mem _

/-- R70 with the frame's fields one behind the other. -/
theorem encFrame_eq (c : Config) (id : Nat) (p : Bytes) :
    encFrame c id p = c.pStart :: cmdByte id ::
      (hexEncode p ++ c.pEnd :: ckRender (ckSum ([cmdByte id] ++ hexEncode p ++ [c.pEnd]))) := by
  simp [encFrame]

/-- Settles O8: each field is dropped down to by the lengths of those before it. -/
theorem requestFrameLayout : Obligations.RequestFrameLayout := by
  intro c id p
  have hlen := hexEncode_length p
  have hdrop : (encFrame c id p).drop 2 =
      hexEncode p ++ c.pEnd :: ckRender (ckSum ([cmdByte id] ++ hexEncode p ++ [c.pEnd])) := by
    rw [encFrame_eq]
    rfl
  refine ⟨encFrame_length c id p, rfl, rfl, ?_, ?_, ?_⟩
  · rw [hdrop, ← hlen, List.take_left]
  · rw [encFrame_eq, List.getD_cons_succ, List.getD_cons_succ, ← hlen, List.getD_append_right _ _ _ _ le_rfl, Nat.sub_self]
    rfl
  · rw [show 2 * p.length + 3 = 2 + ((hexEncode p).length + 1) by omega, ← List.drop_drop, hdrop, ← List.drop_drop,
      List.drop_left]
    rfl

/-- Settles O9: behind the start marker stand hex characters, the digit and the checksum's among them, and the end marker is
none. -/
theorem endMarkerStandsOnce : Obligations.EndMarkerStandsOnce := by
  intro c id p hc hid
  have hother {xs : Bytes} (h : ∀ ch ∈ xs, ch ∈ hexUpTable) : xs.count c.pEnd = 0 :=
    List.count_eq_zero.mpr fun hm => ne_pEnd_of_mem_hexUpTable hc (h _ hm) rfl
  have hbody : (cmdByte id :: hexEncode p).count c.pEnd = 0 := by
    refine hother fun ch hch => ?_
    rcases List.mem_cons.mp hch with rfl | hch
    · exact cmdByte_mem_hexUpTable hid
    · exact hexEncode_mem hch
  rw [encFrame_eq, List.tail_cons, ← List.cons_append, List.count_append, hbody, List.count_cons_self,
    hother fun ch => ckRender_mem]

/-- Settles O57: each code is written in the definition of R141's table. -/
theorem resultCodes : Obligations.ResultCodes :=
  ⟨fun _ => rfl, fun _ => rfl, fun _ => rfl, rfl, fun _ => rfl, rfl, fun _ => rfl⟩

end Sys2Proof
end

section
/-! PROOFS. The request port (spec/30_encoding.md R63, spec/43_exchange.md R112, R113) and the class of a response by its first
byte (spec/30_encoding.md R61). -/

namespace Sys2Proof.Machine

/-- Settles O12: an `EXCH` makes the request it carries. -/
theorem exchAccepted : Obligations.ExchAccepted := by
  intro addr count data s h
  have accepted (req : Request) := exec_request_accepted (i := .exch req) rfl h
  exact ⟨accepted (.byteRead addr count) rfl, fun hd => accepted (.byteWrite addr data) (refusalOf_byteWrite hd),
    accepted (.forceOn addr) rfl, accepted (.forceOff addr) rfl⟩

theorem submit_refused {self : Instr} {req : Request} {s : State} {r : Refusal} (h : s.exSt = .idle)
    (hr : refusalOf req = some r) : submit self req s = .refused r := by
  simp [submit, State.busy, h, hr]

/-- Settles O13: an idle port answers a request that R63 refuses with R63's reason, and a reserved selector's bits are those
of its pattern. -/
theorem refusedRequests : Obligations.RefusedRequests := by
  intro s
  refine ⟨fun h code => ?_, fun h addr data hd => ?_, rfl, fun r => ?_, fun r => ?_⟩
  · exact submit_refused (self := .exch (.other code)) (req := .other code) h rfl
  · have hr : refusalOf (.byteWrite addr data) = some .dataTooLong := if_neg (Nat.not_le.mpr hd)
    exact ⟨submit_refused h hr, submit_refused h hr⟩
  · have hsel : (0b101#3 ++ r : Nibble) = BitVec.ofNat 4 (10 + r.toNat) := by revert r; decide
    rw [← hsel]
    rfl
  · have hsel : (0b11#2 ++ r : Nibble) = BitVec.ofNat 4 (12 + r.toNat) := by revert r; decide
    rw [← hsel]
    rfl

/-- The operations of the request port make a request each. -/
theorem exec_of_request {i : Instr} (hi : holdClass i = some .request) : ∃ req, ∀ s, exec i s = submit i req s := by
  cases i with
  | byteRead addr count => exact ⟨.byteRead addr count, fun _ => rfl⟩
  | byteWrite addr data => exact ⟨.byteWrite addr data, fun _ => rfl⟩
  | forceOn addr => exact ⟨.forceOn addr, fun _ => rfl⟩
  | forceOff addr => exact ⟨.forceOff addr, fun _ => rfl⟩
  | exch req => exact ⟨req, fun _ => rfl⟩
  | _ => cases hi

/-- Settles O14: the busy test comes before every other (R113). -/
theorem busyRequestHeld : Obligations.BusyRequestHeld := by
  intro i s hi h
  obtain ⟨req, hreq⟩ := exec_of_request hi
  rw [hreq]
  exact submit_busy h

/-- Settles O18: the markers are tested in R61's order, and R6 makes them distinct, so each byte has one class. -/
theorem firstByteClasses : Obligations.FirstByteClasses := by
  intro c b hc
  obtain ⟨hStartAck, hStartNak, hAckNak⟩ := legal_markersDistinct hc
  by_cases hStart : b = c.pStart
  · subst hStart
    simp [classifyByte, hStartAck, hStartNak]
  by_cases hAck : b = c.pAck
  · subst hAck
    simp [classifyByte_pAck hc, hStart, hAckNak]
  by_cases hNak : b = c.pNak
  · subst hNak
    simp [classifyByte_pNak hc, hStart, hAck]
  · simp [classifyByte, hStart, hAck, hNak]

end Sys2Proof.Machine
end

section
/-! PROOFS. The decoder and the encoder are inverse to each other (spec/30_encoding.md R51, R60 to R63): for each part of an
instruction, reading it gives a value and a rest exactly where the bytes are that value's, followed by the rest. -/

namespace Sys2Proof

/-! ### Naturals and byte sequences (log entry 6) -/

/-- Fuel beyond the number changes nothing. -/
theorem putNatFuel_eq {f g n : Nat} (hf : n ≤ f) (hg : n ≤ g) : putNatFuel f n = putNatFuel g n := by
  induction f generalizing g n with
  | zero =>
    obtain rfl : n = 0 := Nat.le_zero.mp hf
    cases g <;> rfl
  | succ f ih =>
    cases g with
    | zero =>
      obtain rfl : n = 0 := Nat.le_zero.mp hg
      rfl
    | succ g =>
      rw [putNatFuel, putNatFuel]
      split
      · rfl
      · rw [ih (g := g) (by omega) (by omega)]

theorem putNat_small {n : Nat} (h : n < 128) : putNat n = [BitVec.ofNat 8 n] := by
  unfold putNat
  cases n with
  | zero => rfl
  | succ n => rw [putNatFuel, if_pos h]

theorem putNat_large {n : Nat} (h : 128 ≤ n) : putNat n = BitVec.ofNat 8 (n % 128 + 128) :: putNat (n / 128) := by
  obtain ⟨k, rfl⟩ := Nat.exists_eq_add_of_le' h
  rw [putNat, putNatFuel, if_neg (by omega), putNatFuel_eq (g := (k + 128) / 128) (by omega) le_rfl]
  rfl

theorem getNat_putNat (n : Nat) (rest : Bytes) : getNat (putNat n ++ rest) = .ok (n, rest) := by
  induction n using Nat.strong_induction_on with
  | _ n ih =>
    rcases Nat.lt_or_ge n 128 with h | h
    · have hb : (BitVec.ofNat 8 n).toNat = n := by rw [BitVec.toNat_ofNat]; omega
      rw [putNat_small h, List.singleton_append, getNat, hb, if_pos h]
    · have hb : (BitVec.ofNat 8 (n % 128 + 128)).toNat = n % 128 + 128 := by rw [BitVec.toNat_ofNat]; omega
      rw [putNat_large h, List.cons_append, getNat, hb, if_neg (by omega), ih (n / 128) (by omega)]
      simp only [show n / 128 ≠ 0 by omega, if_false, Except.ok.injEq, Prod.mk.injEq, and_true]
      omega

theorem putNat_of_getNat {bs rest : Bytes} {n : Nat} (h : getNat bs = .ok (n, rest)) : putNat n ++ rest = bs := by
  induction bs generalizing n with
  | nil => cases h
  | cons b bs ih =>
    rw [getNat] at h
    split at h
    · rename_i hb
      cases h
      rw [putNat_small hb, BitVec.ofNat_toNat, BitVec.setWidth_eq, List.singleton_append]
    · rename_i hb
      split at h
      · cases h
      · rename_i m rest' hm
        split at h
        · cases h
        · cases h
          have hlt := b.isLt
          rw [putNat_large (by omega), List.cons_append, show (b.toNat - 128 + 128 * m) / 128 = m by omega,
            show (b.toNat - 128 + 128 * m) % 128 + 128 = b.toNat by omega, ih hm, BitVec.ofNat_toNat, BitVec.setWidth_eq]

theorem getNat_iff {bs rest : Bytes} {n : Nat} : getNat bs = .ok (n, rest) ↔ putNat n ++ rest = bs :=
  ⟨putNat_of_getNat, fun h => h ▸ getNat_putNat n rest⟩

theorem getBytes_iff {bs rest x : Bytes} : getBytes bs = .ok (x, rest) ↔ putBytes x ++ rest = bs := by
  constructor
  · intro h
    rw [getBytes] at h
    split at h
    · cases h
    · rename_i n rest' hn
      split at h
      · cases h
      · rename_i hlen
        cases h
        rw [putBytes, List.length_take, min_eq_left (Nat.not_lt.mp hlen), List.append_assoc, List.take_append_drop,
          getNat_iff.mp hn]
  · rintro rfl
    rw [getBytes, putBytes, List.append_assoc, getNat_putNat]
    simp

/-! ### The operands of a port transaction -/

theorem getAddr_iff {bs rest : Bytes} {a : Addr16} : getAddr bs = .ok (a, rest) ↔ putAddr a ++ rest = bs := by
  constructor
  · intro h
    match bs, h with
    | hi :: lo :: _, h =>
      cases h
      simp [putAddr]
  · rintro rfl
    simp [putAddr, getAddr]

theorem getStatus_iff {bs rest : Bytes} {st : TxStatus} : getStatus bs = .ok (st, rest) ↔ putStatus st ++ rest = bs := by
  constructor
  · intro h
    cases bs with
    | nil => cases h
    | cons tag bs =>
      rw [getStatus] at h
      split at h
      · rename_i htag; cases h; rw [htag]; rfl
      split at h
      · rename_i htag; cases h; rw [htag]; rfl
      split at h
      · rename_i htag
        split at h
        · cases h
        · rename_i hv
          cases h
          rw [htag, ← getBytes_iff.mp hv]
          rfl
      · cases h
  · rintro rfl
    cases st with
    | ok => rfl
    | err e =>
      cases e with
      | notConnected => rfl
      | other v => simp [putStatus, getStatus, getBytes_iff.mpr rfl]

theorem getReason_iff {bs rest : Bytes} {r : Option Reason} : getReason bs = .ok (r, rest) ↔ putReason r ++ rest = bs := by
  constructor
  · intro h
    cases bs with
    | nil => cases h
    | cons tag bs =>
      rw [getReason] at h
      split at h
      · rename_i htag; cases h; rw [htag]; rfl
      split at h
      · rename_i htag
        split at h
        · cases h
        · rename_i hv
          cases h
          rw [htag, ← getBytes_iff.mp hv]
          rfl
      · cases h
  · rintro rfl
    cases r with
    | none => rfl
    | some r => simp [putReason, getReason, getBytes_iff.mpr rfl]

/-- The codes 0 to 3 of the packet form (log entry 6). -/
theorem code_cases {code : Byte} (h : ¬4 ≤ code.toNat) : code = 0 ∨ code = 1 ∨ code = 2 ∨ code = 3 := by
  revert code; decide

theorem putRequest_of_getRequest {bs rest : Bytes} {req : Request} (h : getRequest bs = .ok (req, rest)) :
    req.wf = true ∧ putRequest req ++ rest = bs := by
  cases bs with
  | nil => cases h
  | cons code bs =>
    rw [getRequest] at h
    split at h
    · rename_i hcode
      cases h
      exact ⟨decide_eq_true hcode, rfl⟩
    · rename_i hcode
      split at h
      · cases h
      · rename_i addr rest' haddr
        rw [← getAddr_iff.mp haddr]
        rcases code_cases hcode with rfl | rfl | rfl | rfl
        · match rest', h with
          | count :: _, h => cases h; exact ⟨rfl, rfl⟩
        · simp only [show (1 : Byte) ≠ 0 by decide, if_false, if_true] at h
          split at h
          · cases h
          · rename_i hdata
            cases h
            refine ⟨rfl, ?_⟩
            rw [← getBytes_iff.mp hdata]
            rfl
        · cases h; exact ⟨rfl, rfl⟩
        · cases h; exact ⟨rfl, rfl⟩

theorem getRequest_putRequest {req : Request} (h : req.wf = true) (rest : Bytes) :
    getRequest (putRequest req ++ rest) = .ok (req, rest) := by
  cases req with
  | byteRead addr count => simp [putRequest, getRequest, getAddr_iff.mpr rfl]
  | byteWrite addr data => simp [putRequest, getRequest, getAddr_iff.mpr rfl, getBytes_iff.mpr rfl]
  | forceOn addr => simp [putRequest, getRequest, getAddr_iff.mpr rfl]
  | forceOff addr => simp [putRequest, getRequest, getAddr_iff.mpr rfl]
  | other code => exact if_pos (of_decide_eq_true h)

theorem getRequest_iff {bs rest : Bytes} {req : Request} :
    getRequest bs = .ok (req, rest) ↔ req.wf = true ∧ putRequest req ++ rest = bs :=
  ⟨putRequest_of_getRequest, fun ⟨hwf, h⟩ => h ▸ getRequest_putRequest hwf rest⟩

/-! ### Port transactions -/

theorem decodePort_selector (op : Nibble) (bs : Bytes) : decodePort ((0#4 ++ op : Byte) :: bs) = decodeOperands op bs := by
  rw [decodePort, hiNibble_append, loNibble_append]
  exact if_pos rfl

/-- What is read behind a selector is an instruction of the ports, and the bytes read are its word. -/
def PortWord (c : Config) (op : Nibble) (bs : Bytes) (i : Instr) (rest : Bytes) : Prop :=
  i.chan = .port ∧ i.wf c = true ∧ encode c i ++ rest = (0#4 ++ op : Byte) :: bs

/-- A port transaction with one operand is read where its operand is. -/
theorem operand_of_map {α : Type} {x : Except DecodeError (α × Bytes)} {f : α → Instr} {i : Instr} {rest : Bytes}
    (h : x.map (fun y => (f y.1, y.2)) = .ok (i, rest)) : ∃ a, x = .ok (a, rest) ∧ i = f a := by
  obtain ⟨⟨a, r⟩, ha, e⟩ := except_map_eq_ok.mp h
  cases e
  exact ⟨a, ha, rfl⟩

/-- The selectors 0xC to 0xF share the two bits above their pattern's free ones. -/
theorem selectorByte_reservedCF {op : Nibble} (h : 12 ≤ op.toNat) :
    (0b000011#6 ++ op.extractLsb' 0 2 : Byte) = 0#4 ++ op := by
  revert op; decide

theorem bitVec_one_cases (r : BitVec 1) : r = 0 ∨ r = 1 := by
  revert r; decide

theorem bitVec_two_cases (r : BitVec 2) : r = 0 ∨ r = 1 ∨ r = 2 ∨ r = 3 := by
  revert r; decide

theorem portWord_of_decodeOperands (c : Config) {op : Nibble} {bs rest : Bytes} {i : Instr}
    (h : decodeOperands op bs = .ok (i, rest)) : PortWord c op bs i rest := by
  rw [decodeOperands] at h
  split at h
  case h_1 hop =>
    obtain rfl : op = 0 := BitVec.eq_of_toNat_eq hop
    obtain ⟨req, hreq, rfl⟩ := operand_of_map h
    obtain ⟨hwf, rfl⟩ := getRequest_iff.mp hreq
    exact ⟨rfl, hwf, rfl⟩
  case h_2 hop =>
    obtain rfl : op = 1 := BitVec.eq_of_toNat_eq hop
    obtain ⟨status, hstatus, rfl⟩ := operand_of_map h
    exact ⟨rfl, rfl, congrArg _ (getStatus_iff.mp hstatus)⟩
  case h_3 hop =>
    obtain rfl : op = 2 := BitVec.eq_of_toNat_eq hop
    obtain ⟨chunk, hchunk, rfl⟩ := operand_of_map h
    exact ⟨rfl, rfl, congrArg _ (getBytes_iff.mp hchunk)⟩
  case h_4 hop =>
    obtain rfl : op = 3 := BitVec.eq_of_toNat_eq hop
    obtain ⟨reason, hreason, rfl⟩ := operand_of_map h
    exact ⟨rfl, rfl, congrArg _ (getReason_iff.mp hreason)⟩
  case h_5 hop =>
    obtain rfl : op = 4 := BitVec.eq_of_toNat_eq hop
    obtain ⟨t, ht, rfl⟩ := operand_of_map h
    exact ⟨rfl, rfl, congrArg _ (getNat_iff.mp ht)⟩
  case h_6 hop =>
    obtain rfl : op = 5 := BitVec.eq_of_toNat_eq hop
    split at h
    · cases h
    · rename_i n rest' hn
      obtain ⟨⟨t, r⟩, ht, e⟩ := except_map_eq_ok.mp h
      cases e
      refine ⟨rfl, rfl, ?_⟩
      rw [← getNat_iff.mp hn, ← getNat_iff.mp ht, ← List.append_assoc]
      rfl
  case h_7 hop =>
    obtain rfl : op = 6 := BitVec.eq_of_toNat_eq hop
    obtain ⟨bytes, hbytes, rfl⟩ := operand_of_map h
    exact ⟨rfl, rfl, congrArg _ (getBytes_iff.mp hbytes)⟩
  case h_8 hop =>
    obtain rfl : op = 7 := BitVec.eq_of_toNat_eq hop
    obtain ⟨bytes, hbytes, rfl⟩ := operand_of_map h
    exact ⟨rfl, rfl, congrArg _ (getBytes_iff.mp hbytes)⟩
  case h_9 hop =>
    obtain rfl : op = 8 := BitVec.eq_of_toNat_eq hop
    obtain ⟨chars, hchars, rfl⟩ := operand_of_map h
    exact ⟨rfl, rfl, congrArg _ (getBytes_iff.mp hchars)⟩
  case h_10 hop =>
    obtain rfl : op = 9 := BitVec.eq_of_toNat_eq hop
    cases h
    exact ⟨rfl, rfl, rfl⟩
  case h_11 hop =>
    obtain rfl : op = 10 := BitVec.eq_of_toNat_eq hop
    cases h
    exact ⟨rfl, rfl, rfl⟩
  case h_12 hop =>
    obtain rfl : op = 11 := BitVec.eq_of_toNat_eq hop
    cases h
    exact ⟨rfl, rfl, rfl⟩
  case h_13 =>
    cases h
    have hop : 12 ≤ op.toNat := by
      simp only [imp_false] at *
      omega
    exact ⟨rfl, rfl, congrArg (· :: bs) (selectorByte_reservedCF hop)⟩

theorem decodePort_encode (c : Config) {i : Instr} (hch : i.chan = .port) (hwf : i.wf c = true) (rest : Bytes) :
    decodePort (encode c i ++ rest) = .ok (i, rest) := by
  cases i with
  | exch req =>
    exact (decodePort_selector 0 _).trans (except_map_eq_ok.mpr ⟨_, getRequest_iff.mpr ⟨hwf, rfl⟩, rfl⟩)
  | txDone status => exact (decodePort_selector 1 _).trans (except_map_eq_ok.mpr ⟨_, getStatus_iff.mpr rfl, rfl⟩)
  | push chunk => exact (decodePort_selector 2 _).trans (except_map_eq_ok.mpr ⟨_, getBytes_iff.mpr rfl, rfl⟩)
  | close reason => exact (decodePort_selector 3 _).trans (except_map_eq_ok.mpr ⟨_, getReason_iff.mpr rfl, rfl⟩)
  | advance t => exact (decodePort_selector 4 _).trans (except_map_eq_ok.mpr ⟨_, getNat_iff.mpr rfl, rfl⟩)
  | rdReq n t =>
    refine (decodePort_selector 5 (putNat n ++ putNat t ++ rest)).trans ?_
    have hn : getNat (putNat n ++ putNat t ++ rest) = .ok (n, putNat t ++ rest) := by
      rw [List.append_assoc]
      exact getNat_putNat _ _
    simp only [decodeOperands, BitVec.reduceToNat, hn, getNat_putNat]
    rfl
  | cksum bytes => exact (decodePort_selector 6 _).trans (except_map_eq_ok.mpr ⟨_, getBytes_iff.mpr rfl, rfl⟩)
  | hexenc bytes => exact (decodePort_selector 7 _).trans (except_map_eq_ok.mpr ⟨_, getBytes_iff.mpr rfl, rfl⟩)
  | hexdec chars => exact (decodePort_selector 8 _).trans (except_map_eq_ok.mpr ⟨_, getBytes_iff.mpr rfl, rfl⟩)
  | reservedOp9 => rfl
  | reservedOpAB r =>
    obtain rfl | rfl := bitVec_one_cases r
    · rfl
    · rfl
  | reservedOpCF r =>
    obtain rfl | rfl | rfl | rfl := bitVec_two_cases r
    all_goals rfl
  | _ => cases hch

/-! ### Request frames -/

theorem splitAtByte_iff {e : Byte} {bs pre post : Bytes} :
    splitAtByte e bs = some (pre, post) ↔ e ∉ pre ∧ bs = pre ++ e :: post := by
  induction bs generalizing pre with
  | nil => simp [splitAtByte]
  | cons b bs ih =>
    rw [splitAtByte]
    by_cases hb : b = e
    · subst hb
      cases pre with
      | nil => simp
      | cons x pre => simp +contextual [eq_comm]
    · rw [if_neg hb, Option.map_eq_some_iff]
      constructor
      · rintro ⟨⟨x, y⟩, hx, heq⟩
        cases heq
        obtain ⟨hmem, rfl⟩ := ih.mp hx
        exact ⟨by simp [hmem, Ne.symm hb], rfl⟩
      · rintro ⟨hmem, heq⟩
        cases pre with
        | nil => cases heq; exact absurd rfl hb
        | cons x pre =>
          cases heq
          exact ⟨_, ih.mpr ⟨fun h => hmem (.tail _ h), rfl⟩, rfl⟩

theorem commandOf_eq_some {c : Config} {d : Byte} {cmd : Command} (h : c.commandOf d = some cmd) :
    d = cmdByte (c.commandId cmd) := by
  unfold Config.commandOf at h
  split at h
  · cases h; assumption
  split at h
  · cases h; assumption
  split at h
  · cases h; assumption
  split at h
  · cases h; assumption
  · cases h

/-- R6: a legal configuration tells the four digits apart. -/
theorem commandOf_cmdByte {c : Config} (hc : c.legal = true) (cmd : Command) :
    c.commandOf (cmdByte (c.commandId cmd)) = some cmd := by
  have hne {x y : Command} (h : x ≠ y) : cmdByte (c.commandId x) ≠ cmdByte (c.commandId y) := fun e =>
    h (commandId_injective hc (cmdByte_injective (commandId_le hc x) (commandId_le hc y) e))
  have hBR : c.cmdBR = c.commandId .byteRead := rfl
  have hBW : c.cmdBW = c.commandId .byteWrite := rfl
  have hFON : c.cmdFON = c.commandId .forceOn := rfl
  have hFOFF : c.cmdFOFF = c.commandId .forceOff := rfl
  rw [Config.commandOf, hBR, hBW, hFON, hFOFF]
  cases cmd with
  | byteRead => rw [if_pos rfl]
  | byteWrite => rw [if_neg (hne (by simp)), if_pos rfl]
  | forceOn => rw [if_neg (hne (by simp)), if_neg (hne (by simp)), if_pos rfl]
  | forceOff => rw [if_neg (hne (by simp)), if_neg (hne (by simp)), if_neg (hne (by simp)), if_pos rfl]

/-- R54 to R56: the payload that is read as an instruction is that instruction's, and its frame the instruction's word. -/
theorem encode_of_instrOfPayload (c : Config) {cmd : Command} {p : Bytes} {i : Instr} (h : instrOfPayload cmd p = some i) :
    i.chan = .request ∧ i.wf c = true ∧ encode c i = encFrame c (c.commandId cmd) p := by
  unfold instrOfPayload at h
  split at h
  · cases h
    exact ⟨rfl, rfl, by simp [encode, Request.frame, byteReadPayload]⟩
  · rename_i hi lo n data
    split at h
    · rename_i hlen
      cases h
      have hn : BitVec.ofNat 8 data.length = n := by rw [hlen, BitVec.ofNat_toNat, BitVec.setWidth_eq]
      refine ⟨rfl, decide_eq_true (by have := n.isLt; omega), ?_⟩
      simp [encode, Request.frame, byteWritePayload, hn]
    · cases h
  · cases h
    exact ⟨rfl, rfl, by simp [encode, Request.frame, bitForcePayload]⟩
  · cases h
    exact ⟨rfl, rfl, by simp [encode, Request.frame, bitForcePayload]⟩
  · cases h

/-- Every well-formed command row's word is the frame of a payload that is read as it. -/
theorem exists_payload (c : Config) {i : Instr} (hch : i.chan = .request) (hwf : i.wf c = true) :
    ∃ cmd p, instrOfPayload cmd p = some i ∧ encode c i = encFrame c (c.commandId cmd) p := by
  have read {cmd : Command} {p : Bytes} (h : instrOfPayload cmd p = some i) :
      ∃ cmd p, instrOfPayload cmd p = some i ∧ encode c i = encFrame c (c.commandId cmd) p :=
    ⟨cmd, p, h, (encode_of_instrOfPayload c h).2.2⟩
  cases i with
  | byteRead addr count =>
    exact read (cmd := .byteRead) (p := byteReadPayload addr count) (by simp [instrOfPayload, byteReadPayload])
  | byteWrite addr data =>
    have hlen : data.length = (BitVec.ofNat 8 data.length).toNat := by
      have : data.length ≤ 255 := of_decide_eq_true hwf
      rw [BitVec.toNat_ofNat]
      omega
    exact read (cmd := .byteWrite) (p := byteWritePayload addr data) (by simp [instrOfPayload, byteWritePayload, ← hlen])
  | forceOn addr => exact read (cmd := .forceOn) (p := bitForcePayload addr) (by simp [instrOfPayload, bitForcePayload])
  | forceOff addr => exact read (cmd := .forceOff) (p := bitForcePayload addr) (by simp [instrOfPayload, bitForcePayload])
  | _ => cases hch

/-- R51: the body of a frame is read exactly where it is the hex of a payload, the end marker and the right checksum. -/
theorem decodeRequestBody_iff {c : Config} {cmd : Command} {d : Byte} {bs rest : Bytes} {i : Instr} :
    decodeRequestBody c cmd d bs = .ok (i, rest) ↔ ∃ p, instrOfPayload cmd p = some i ∧ c.pEnd ∉ hexEncode p ∧
      bs = hexEncode p ++ c.pEnd :: (ckRender (ckSum ([d] ++ hexEncode p ++ [c.pEnd])) ++ rest) := by
  constructor
  · intro h
    unfold decodeRequestBody at h
    split at h
    · cases h
    · rename_i hex c1 c2 rest' hsplit
      obtain ⟨hmem, rfl⟩ := splitAtByte_iff.mp hsplit
      split at h
      · cases h
      · rename_i hck
        split at h
        · cases h
        · rename_i p hp
          split at h
          · cases h
          · rename_i hhex
            split at h
            · cases h
            · rename_i hi
              cases h
              rw [not_not] at hck hhex
              subst hhex
              exact ⟨p, hi, hmem, by rw [← hck]; rfl⟩
    · cases h
  · rintro ⟨p, hi, hmem, rfl⟩
    unfold decodeRequestBody
    rw [splitAtByte_iff.mpr ⟨hmem, rfl⟩]
    simp [ckRender, hexDecode_hexEncode, hi]

/-- R51, R60: the frame is read where it is the encoder's frame of a payload, under a digit that names the command. -/
theorem decodeRequest_iff {c : Config} {bs rest : Bytes} {i : Instr} :
    decodeRequest c bs = .ok (i, rest) ↔ ∃ cmd p, c.commandOf (cmdByte (c.commandId cmd)) = some cmd ∧
      instrOfPayload cmd p = some i ∧ c.pEnd ∉ hexEncode p ∧ encFrame c (c.commandId cmd) p ++ rest = bs := by
  constructor
  · intro h
    match bs, h with
    | s :: d :: bs, h =>
      rw [decodeRequest] at h
      split at h
      · cases h
      · rename_i hs
        split at h
        · cases h
        · rename_i cmd hcmd
          obtain ⟨p, hi, hmem, rfl⟩ := decodeRequestBody_iff.mp h
          rw [not_not] at hs
          subst hs
          obtain rfl := commandOf_eq_some hcmd
          exact ⟨cmd, p, hcmd, hi, hmem, by simp [encFrame_eq]⟩
  · rintro ⟨cmd, p, hcmd, hi, hmem, rfl⟩
    rw [encFrame_eq, List.cons_append, List.cons_append, decodeRequest, if_neg (not_not_intro rfl), hcmd]
    exact decodeRequestBody_iff.mpr ⟨p, hi, hmem, by simp⟩

/-! ### Responses -/

/-- R61: the class of a byte has that byte as its word. -/
theorem encode_classifyByte (c : Config) (b : Byte) :
    (classifyByte c b).instr.chan = .response ∧ (classifyByte c b).instr.wf c = true ∧
      encode c (classifyByte c b).instr = [b] := by
  unfold classifyByte
  split
  · rename_i h; exact ⟨rfl, rfl, by rw [h]; rfl⟩
  split
  · rename_i h; exact ⟨rfl, rfl, by rw [h]; rfl⟩
  split
  · rename_i h; exact ⟨rfl, rfl, by rw [h]; rfl⟩
  · rename_i hStart hAck hNak
    exact ⟨rfl, by simp [RespClass.instr, Instr.wf, NoRespInfo.wf, otherByte, hStart, hAck, hNak], rfl⟩

theorem decodeResponse_encode {c : Config} (hc : c.legal = true) {i : Instr} (hch : i.chan = .response) (hwf : i.wf c = true)
    (hword : i.hasWord = true) (rest : Bytes) : decodeResponse c (encode c i ++ rest) = .ok (i, rest) := by
  cases i with
  | respData => simp [encode, decodeResponse, classifyByte, RespClass.instr]
  | respAck => simp [encode, decodeResponse, Machine.classifyByte_pAck hc, RespClass.instr]
  | respNak => simp [encode, decodeResponse, Machine.classifyByte_pNak hc, RespClass.instr]
  | respOther info =>
    cases info with
    | firstByte b =>
      simp only [Instr.wf, NoRespInfo.wf, otherByte, Bool.and_eq_true, bne_iff_ne] at hwf
      obtain ⟨⟨hStart, hAck⟩, hNak⟩ := hwf
      simp [encode, decodeResponse, classifyByte, RespClass.instr, hStart, hAck, hNak]
    | timeout => cases hword
    | closed reason => cases hword
  | _ => cases hch

/-! ### The decoder and the encoder -/

/-- Settles O15: format by format, each field is read back from what the encoder has put there. -/
theorem decodeOfEncode : Obligations.DecodeOfEncode := by
  intro c i rest hc hwf hword
  cases hch : i.chan with
  | request =>
    obtain ⟨cmd, p, hi, he⟩ := exists_payload c hch hwf
    exact decodeRequest_iff.mpr ⟨cmd, p, commandOf_cmdByte hc cmd, hi, pEnd_not_mem_hexEncode hc p, by rw [he]⟩
  | response => exact decodeResponse_encode hc hch hwf hword rest
  | port => exact decodePort_encode c hch hwf rest

/-- Settles O16: format by format, what a field was read from is what the encoder puts there. -/
theorem encodeOfDecode : Obligations.EncodeOfDecode := by
  intro c ch bs rest i h
  cases ch with
  | request =>
    obtain ⟨cmd, p, -, hi, -, rfl⟩ := decodeRequest_iff.mp h
    obtain ⟨hch, hwf, he⟩ := encode_of_instrOfPayload c hi
    exact ⟨hch, hwf, by rw [he]⟩
  | response =>
    cases bs with
    | nil => cases h
    | cons b bs =>
      cases h
      obtain ⟨hch, hwf, he⟩ := encode_classifyByte c b
      exact ⟨hch, hwf, by rw [he]; rfl⟩
  | port =>
    cases bs with
    | nil => cases h
    | cons b bs =>
      change decodePort (b :: bs) = _ at h
      rw [decodePort] at h
      split at h
      · rename_i hhi
        obtain ⟨hch, hwf, he⟩ := portWord_of_decodeOperands c h
        refine ⟨hch, hwf, he.trans (congrArg (· :: bs) ?_)⟩
        rw [← nibbles_append b, hhi, loNibble_append]
        rfl
      · cases h

/-- Settles O17: the words are decoded by computation. -/
theorem specWordsDecode : Obligations.SpecWordsDecode :=
  ⟨rfl, rfl, rfl, rfl, rfl, rfl, rfl⟩

/-- A command row is a request whose frame is its word (log entry 7), and R63 does not refuse a well-formed one. -/
theorem request_of_chan {c : Config} {i : Instr} (hch : i.chan = .request) (hwf : i.wf c = true) :
    ∃ req, Machine.requestOf i = some req ∧ Machine.refusalOf req = none ∧ req.frame c = encode c i := by
  cases i with
  | byteRead addr count => exact ⟨.byteRead addr count, rfl, rfl, rfl⟩
  | byteWrite addr data =>
    exact ⟨.byteWrite addr data, rfl, Machine.refusalOf_byteWrite (of_decide_eq_true hwf), rfl⟩
  | forceOn addr => exact ⟨.forceOn addr, rfl, rfl, rfl⟩
  | forceOff addr => exact ⟨.forceOff addr, rfl, rfl, rfl⟩
  | _ => cases hch

/-- Settles O19: by O16 the frame is the word of what it decodes to, which is the frame the request sends. -/
theorem decodedRequestSendsItsFrame : Obligations.DecodedRequestSendsItsFrame := by
  intro s f i _ hst h
  obtain ⟨hch, hwf, he⟩ := encodeOfDecode s.cfg .request f [] i h
  obtain ⟨req, hreq, hrefuse, hframe⟩ := request_of_chan hch hwf
  rw [Machine.exec_request_accepted hreq hst hrefuse, hframe, ← he, List.append_nil]
  rfl

end Sys2Proof
end

section
/-! PROOFS. What an operation leaves unchanged, and that it ends with nothing left to dispatch (spec/10_state.md sections 2 and
3, spec/00_scope.md R9). -/

namespace Sys2Proof.Machine

/-! ### The shared operations -/

theorem kept_settle (s : State) : Kept s s.settle := (kept_satisfy s).trans (kept_dispatch _)

@[simp] theorem settle_res (s : State) : s.settle.res = [] := dispatch_res _

/-- A close leaves all but the closed flag and its reason, whatever is dispatched in it. -/
theorem kept_close (s : State) (reason : Option Reason) :
    Kept { s with srClosed := true, srReason := reason } (State.dispatch
      { State.failWaiters (fun _ => true) (.closed reason) s with srClosed := true, srReason := reason, srQ := [] }) := by
  obtain ⟨hcfg, hnow, hclosed, hreason, hinp, hheld, hout, hwid⟩ := kept_dispatch
    { State.failWaiters (fun _ => true) (.closed reason) s with srClosed := true, srReason := reason, srQ := [] }
  exact ⟨hcfg, hnow, hclosed, hreason, hinp, hheld, hout, hwid⟩

/-- An advance leaves all but the clock, whatever is dispatched in it. -/
theorem kept_advance (s : State) (τ : Nat) :
    Kept { s with now := τ }
      (State.settle (State.failWaiters (fun w => decide (w.deadline ≤ τ)) .timeout { s with now := τ })) := by
  obtain ⟨hcfg, hnow, hclosed, hreason, hinp, hheld, hout, hwid⟩ := kept_settle
    (State.failWaiters (fun w => decide (w.deadline ≤ τ)) .timeout { s with now := τ })
  exact ⟨hcfg, hnow, hclosed, hreason, hinp, hheld, hout, hwid⟩

theorem kept_transportError (s : State) (e : TransportErr) :
    Kept s (State.dispatch (State.raise (.transportError e) { s with exFrame := [] })) :=
  (kept_complete (.err (.transportError e)) s).trans (kept_dispatch (s.complete (.err (.transportError e))))

theorem kept_push (s : State) (chunk : Bytes) : Kept s (State.settle { s with srQ := s.srQ ++ chunk }) := by
  obtain ⟨hcfg, hnow, hclosed, hreason, hinp, hheld, hout, hwid⟩ := kept_settle { s with srQ := s.srQ ++ chunk }
  exact ⟨hcfg, hnow, hclosed, hreason, hinp, hheld, hout, hwid⟩

theorem kept_accept (f : Bytes) (s : State) : Kept s (s.accept f) :=
  ⟨rfl, rfl, rfl, rfl, rfl, rfl, List.prefix_append _ _, le_rfl⟩

/-! ### Every operation -/

/-- An operation that is neither `CLOSE` nor `ADVANCE` keeps the frame of `Kept`, or is held. -/
theorem ExecTo.kept {i : Instr} {s t : State} (k : ExecTo s i t) (hc : ∀ reason, i ≠ .close reason)
    (ha : ∀ τ, i ≠ .advance τ) : Kept s t ∨ t = s.hold i := by
  cases k with
  | held _ => exact .inr rfl
  | nothing _ _ => exact .inl (.refl s)
  | answers _ _ _ => exact .inl (kept_emit _ s)
  | accepted _ _ _ => exact .inl (kept_accept _ s)
  | sent _ _ => exact .inl (kept_startDecoding s)
  | failed _ => exact .inl (kept_transportError s _)
  | pushed _ _ => exact .inl (kept_push s _)
  | closed _ => exact absurd rfl (hc _)
  | advanced _ => exact absurd rfl (ha _)
  | read _ => exact .inl ((kept_read _ _ s).trans (kept_dispatch _))
  | responded cls _ _ => exact .inl (kept_answerFirst cls s)

/-- Settles O55: none of these operations is a `CLOSE` or an `ADVANCE`. -/
theorem decodingTransactionsFrame : Obligations.DecodingTransactionsFrame := by
  intro i s t hi h
  have hne : (∀ reason, i ≠ .close reason) ∧ ∀ τ, i ≠ .advance τ := by
    rcases hi with ⟨_, rfl⟩ | ⟨_, rfl⟩ | ⟨_, _, rfl⟩ | ⟨cls, rfl⟩
    · simp
    · simp
    · simp
    · cases cls <;> simp [RespClass.instr]
  exact (exec_to h).kept hne.1 hne.2

/-- Settles O54: an operation that delivers results dispatches them all, and no other adds one. -/
theorem transactionsEndDispatched : Obligations.TransactionsEndDispatched := by
  intro i s t hr h
  cases exec_to h with
  | held _ | nothing _ _ | answers _ _ _ | accepted _ _ _ => exact hr
  | sent _ _ | failed _ | pushed _ _ | closed _ | advanced _ | read _ | responded _ _ _ => exact dispatch_res _

theorem kept_of_exec_advance {s t : State} {τ : Nat} (h : exec (.advance τ) s = .next t) : Kept { s with now := τ } t := by
  change execAdvance τ s = .next t at h
  by_cases hτ : s.now ≤ τ
  · rw [execAdvance_forward hτ] at h
    cases h
    exact kept_advance s τ
  · rw [execAdvance, if_pos (Nat.lt_of_not_le hτ)] at h
    cases h

theorem now_of_exec_close {s t : State} {reason : Option Reason} (h : exec (.close reason) s = .next t) : t.now = s.now := by
  change execClose reason s = .next t at h
  cases hcl : s.srClosed with
  | true =>
    rw [execClose, if_pos hcl] at h
    cases h
    rfl
  | false =>
    rw [execClose_open reason hcl] at h
    cases h
    exact (kept_close s reason).now

/-- Settles O53: by the frame of each operation, with the clock and the closed flag that `ADVANCE` and `CLOSE` set. -/
theorem onlyCloseClosesOnlyAdvanceMovesTime : Obligations.OnlyCloseClosesOnlyAdvanceMovesTime := by
  intro i s t h
  refine ⟨fun hc => ?_, fun ha => ?_, ?_⟩
  · by_cases ha : ∃ τ, i = .advance τ
    · obtain ⟨τ, rfl⟩ := ha
      have k := kept_of_exec_advance h
      exact ⟨k.closed, k.reason⟩
    · rcases (exec_to h).kept hc (fun τ e => ha ⟨τ, e⟩) with k | rfl
      · exact ⟨k.closed, k.reason⟩
      · exact ⟨rfl, rfl⟩
  · by_cases hc : ∃ reason, i = .close reason
    · obtain ⟨reason, rfl⟩ := hc
      exact now_of_exec_close h
    · rcases (exec_to h).kept (fun reason e => hc ⟨reason, e⟩) ha with k | rfl
      · exact k.now
      · rfl
  · rintro τ rfl
    exact (kept_of_exec_advance h).now

/-! ### Every step -/

/-- What no step takes back (R17 to R20, R25). -/
structure Monotone (s t : State) : Prop where
  cfg : t.cfg = s.cfg
  now : s.now ≤ t.now
  nextWid : s.srNextWid ≤ t.srNextWid
  out : s.out <+: t.out
  closed : s.srClosed = true → t.srClosed = true ∧ t.srReason = s.srReason

theorem Kept.monotone {s t : State} (h : Kept s t) : Monotone s t :=
  ⟨h.cfg, h.now.ge, h.nextWid, h.out, fun hc => ⟨h.closed.trans hc, h.reason⟩⟩

theorem ExecTo.monotone {i : Instr} {s t : State} (k : ExecTo s i t) : Monotone s t := by
  cases k with
  | held _ => exact ⟨rfl, le_rfl, le_rfl, List.prefix_rfl, fun hc => ⟨hc, rfl⟩⟩
  | nothing _ _ => exact (Kept.refl s).monotone
  | answers _ _ _ => exact (kept_emit _ s).monotone
  | accepted _ _ _ => exact (kept_accept _ s).monotone
  | sent _ _ => exact (kept_startDecoding s).monotone
  | failed _ => exact (kept_transportError s _).monotone
  | pushed _ _ => exact (kept_push s _).monotone
  | @closed reason hcl =>
    have k := kept_close s reason
    exact ⟨k.cfg, k.now.ge, k.nextWid, k.out, fun hc => by simp [hcl] at hc⟩
  | @advanced τ hτ =>
    have k := kept_advance s τ
    exact ⟨k.cfg, hτ.trans k.now.ge, k.nextWid, k.out, fun hc => ⟨k.closed.trans hc, k.reason⟩⟩
  | read _ => exact ((kept_read _ _ s).trans (kept_dispatch _)).monotone
  | responded cls _ _ => exact (kept_answerFirst cls s).monotone

/-- Settles O52: a step is an operation, a dispatch or nothing, on a state that differs from `s` at the input ports alone. -/
theorem stepIsMonotone : Obligations.StepIsMonotone := by
  intro s t h
  have hm : Monotone s t := by
    cases step_to h with
    | ran _ k =>
      obtain ⟨hcfg, hnow, hwid, hout, hclosed⟩ := k.monotone
      exact ⟨hcfg, hnow, hwid, hout, hclosed⟩
    | wentOn _ => exact (kept_dispatch s).monotone
    | waits _ => exact ⟨rfl, le_rfl, le_rfl, List.prefix_rfl, fun hc => ⟨hc, rfl⟩⟩
    | idle _ => exact (Kept.refl s).monotone
  exact ⟨hm.cfg, hm.now, hm.nextWid, hm.out, hm.closed⟩

/-! ### A closed reader -/

theorem rx_closed_reader {s : State} (hcl : s.srClosed = true) (n : Nat) :
    (s.rx n).srQ = s.srQ ∧ (s.rx n).srWaiters = s.srWaiters := by
  rw [rx_closed n hcl]
  exact ⟨rfl, rfl⟩

/-- On a closed reader the decoder's rules register no waiter and take no byte (R94, R124). -/
theorem dispatchEntry_closed {s : State} (hcl : s.srClosed = true) (w : Nat) (r : RdResult) :
    (State.dispatchEntry w r s).srQ = s.srQ ∧ (State.dispatchEntry w r s).srWaiters = s.srWaiters := by
  unfold State.dispatchEntry
  split
  · split
    · rename_i t ht
      obtain ⟨-, ⟨acc, st, -, -, -, -, -, rfl⟩ | ⟨x, rfl⟩⟩ := react_cases ht
      · exact rx_closed_reader (s := { s with exWid := none, exAcc := acc, exSt := st }) hcl _
      · exact ⟨rfl, rfl⟩
    · exact ⟨rfl, rfl⟩
  · exact ⟨rfl, rfl⟩

theorem dispatch_closed {s : State} (hcl : s.srClosed = true) :
    s.dispatch.srQ = s.srQ ∧ s.dispatch.srWaiters = s.srWaiters := by
  refine (dispatch_induct (P := fun t => t.srClosed = true ∧ t.srQ = s.srQ ∧ t.srWaiters = s.srWaiters) ?_ s
    ⟨hcl, rfl, rfl⟩).2
  rintro t w r rest - ⟨htc, htq, htw⟩
  obtain ⟨hq, hw⟩ := dispatchEntry_closed (s := { t with res := rest }) htc w r
  exact ⟨(kept_dispatchEntry w r { t with res := rest }).closed.trans htc, hq.trans htq, hw.trans htw⟩

/-- Settles O45: after the close every read of the decoder fails at once, so no read is left pending; an advance serves and
dispatches as a push does. -/
theorem closeAndAdvanceComplete : Obligations.CloseAndAdvanceComplete := by
  intro s
  refine ⟨fun hcl reason => ?_, fun τ hτ => ?_⟩
  · have k := kept_close s reason
    obtain ⟨hq, hw⟩ := dispatch_closed (s := { State.failWaiters (fun _ => true) (.closed reason) s with
      srClosed := true, srReason := reason, srQ := [] }) rfl
    exact ⟨_, execClose_open reason hcl, k.closed, k.reason, hq, hw.trans (by simp), dispatch_res _, k⟩
  · have k := kept_advance s τ
    exact ⟨_, execAdvance_forward hτ, k.now, settle_res _, k⟩

end Sys2Proof.Machine
end

section
/-! PROOFS. The response classes (spec/41_frame_decode.md R92 to R98), `TX_DONE` (spec/43_exchange.md R114 to R117), the
standalone read, and where a transaction is held (spec/44_stream_reader.md R122 to R124). -/

namespace Sys2Proof.Machine

/-! ### The decoder's read, dispatched -/

theorem rx_dispatch_waits {n : Nat} {s : State} (hcl : s.srClosed = false) (hq : s.srQ.length < n) (hr : s.res = []) :
    (s.rx n).dispatch = { s with
      srNextWid := s.srNextWid + 1
      srWaiters := s.srWaiters ++ [⟨s.srNextWid, n, s.now + s.cfg.readTimeout⟩]
      exWid := some s.srNextWid } := by
  rw [rx_waits hcl hq]
  exact dispatch_nil hr

/-- A read of the decoder on a closed reader fails in the same transaction (R94, R98). -/
theorem rx_dispatch_closed {n : Nat} {s : State} {x : ExResult} (hcl : s.srClosed = true) (hr : s.res = [])
    (hx : ∀ u : State, u.exSt = s.exSt → u.react (.closed s.srReason) = some (u.complete x)) :
    (s.rx n).dispatch = State.complete x { s with srNextWid := s.srNextWid + 1 } := by
  rw [rx_closed n hcl]
  refine (dispatch_completes (w := s.srNextWid) (r := .closed s.srReason) (x := x) ?_ ?_ ?_).trans ?_
  · rw [hr]
    rfl
  · rfl
  · exact hx _ rfl
  · rw [← hr]
    rfl

theorem react_first_closed {s : State} (h : s.exSt = .rxFirst) (reason : Option Reason) :
    s.react (.closed reason) = some (s.complete (.err (.noResponse (.closed reason)))) := by
  simp only [State.react, h, firstClass, State.respond_other]

theorem react_accum_closed {s : State} (h : s.exSt = .rxAccum) (reason : Option Reason) :
    s.react (.closed reason) = some (s.complete (.err (.malformedResponse .m1NoEnd))) := by
  simp only [State.react, h, State.raise_eq]

/-! ### Holding -/

theorem ne_hold_of_held_eq {s t : State} (h : t.held = s.held) (i : Instr) : t ≠ s.hold i := by
  rintro rfl
  simp at h

/-- Where no waiter fits, a transaction is held exactly where it would leave one more. -/
theorem finish_full {self : Instr} {s t : State} (h : s.waitersFull = true) :
    finish self s t = if s.srWaiters.length < t.srWaiters.length then .next (s.hold self) else .next t := by
  simp [finish, State.neededWaiter, h]

theorem finish_eq_hold_iff {self : Instr} {s t : State} (h : t.held = s.held) :
    finish self s t = .next (s.hold self) ↔ s.neededWaiter t = true := by
  cases hn : s.neededWaiter t with
  | true => simp [finish_held hn]
  | false => simpa [finish_done hn] using ne_hold_of_held_eq h self

theorem firstRead_eq_hold_iff {cls : RespClass} {s : State} :
    firstRead cls s = .next (s.hold cls.instr) ↔ (s.firstAnswered && s.neededWaiter (s.answerFirst cls)) = true := by
  cases hf : s.firstAnswered with
  | true => rw [firstRead_answered hf, finish_eq_hold_iff (kept_answerFirst cls s).held, Bool.true_and]
  | false => simp [firstRead, hf]

theorem submit_eq_hold_iff {self : Instr} {req : Request} {s : State} :
    submit self req s = .next (s.hold self) ↔ s.busy = true := by
  by_cases hst : s.exSt = .idle
  · have hb : s.busy = false := by simp [State.busy, hst]
    cases hr : refusalOf req with
    | none => simpa [submit_accepted hst hr, hb] using ne_hold_of_held_eq (kept_accept _ s).held self
    | some r => simp [submit_refused hst hr, hb]
  · simp [submit_busy hst, State.busy, hst]

theorem exec_request_eq_hold_iff {i : Instr} {s : State} (hi : holdClass i = some .request) :
    exec i s = .next (s.hold i) ↔ s.busy = true := by
  obtain ⟨req, hreq⟩ := exec_of_request hi
  rw [hreq]
  exact submit_eq_hold_iff

theorem execTxDone_eq_hold_iff {status : TxStatus} {s : State} :
    execTxDone status s = .next (s.hold (.txDone status)) ↔ s.mustHold (.txDone status) = true := by
  by_cases hst : s.exSt = .tx
  · cases status with
    | ok =>
      rw [execTxDone_ok hst, finish_eq_hold_iff (kept_startDecoding s).held]
      simp [State.mustHold, hst]
    | err e =>
      rw [execTxDone_err e hst]
      simpa [State.mustHold] using ne_hold_of_held_eq (kept_transportError s e).held _
  · cases status with
    | ok => simp [execTxDone, State.mustHold, hst]
    | err e => simp [execTxDone, State.mustHold, hst]

theorem execPush_closed {s : State} (h : s.srClosed = true) (chunk : Bytes) : execPush chunk s = .next s := if_pos h

theorem execPush_held {s : State} {chunk : Bytes} (h : s.srClosed = false) (hf : s.chunkFits chunk = false)
    (hb : withinBound chunk.length s.cfg.queueCap = true) : execPush chunk s = .next (s.hold (.push chunk)) := by
  simp [execPush, h, hf, hb]

theorem execPush_refused {s : State} {chunk : Bytes} (h : s.srClosed = false) (hf : s.chunkFits chunk = false)
    (hb : withinBound chunk.length s.cfg.queueCap = false) : execPush chunk s = .refused .pushTooLong := by
  simp [execPush, h, hf, hb]

theorem pushHeld_iff {chunk : Bytes} {s : State} : s.pushHeld chunk = true ↔ s.srClosed = false ∧
    withinBound (s.srQ.length + chunk.length) s.cfg.queueCap = false ∧ withinBound chunk.length s.cfg.queueCap = true := by
  simp [State.pushHeld, State.chunkFits, and_assoc]

theorem execPush_eq_hold_iff {chunk : Bytes} {s : State} :
    execPush chunk s = .next (s.hold (.push chunk)) ↔ s.pushHeld chunk = true := by
  cases hcl : s.srClosed with
  | true => simpa [execPush_closed hcl, State.pushHeld, hcl] using ne_hold_of_held_eq rfl _
  | false =>
    cases hf : s.chunkFits chunk with
    | true =>
      simpa [execPush_fits hcl hf, State.pushHeld, hf] using ne_hold_of_held_eq (kept_push s chunk).held _
    | false =>
      cases hb : withinBound chunk.length s.cfg.queueCap with
      | true => simp [execPush_held hcl hf hb, State.pushHeld, hcl, hf, hb]
      | false => simp [execPush_refused hcl hf hb, State.pushHeld, hb]

theorem execRdReq_eq_hold_iff {n τ : Nat} {s : State} :
    execRdReq n τ s = .next (s.hold (.rdReq n τ)) ↔ s.readHeld n = true := by
  cases hh : s.readHeld n with
  | true => simp [execRdReq, hh]
  | false =>
    simpa [execRdReq_issued hh] using ne_hold_of_held_eq ((kept_read n τ s).trans (kept_dispatch _)).held _

/-- An operation of no class is never held. -/
theorem ExecTo.held_eq {i : Instr} {s t : State} (k : ExecTo s i t) (hi : holdClass i = none) : t.held = s.held := by
  cases k with
  | nothing _ _ | answers _ _ _ => rfl
  | @closed reason _ => exact (kept_close s reason).held
  | @advanced τ _ => exact (kept_advance s τ).held
  | held h => simp [hi] at h
  | accepted h _ _ => simp [hi] at h
  | sent _ _ | failed _ | pushed _ _ | read _ => cases hi
  | responded cls _ _ => cases cls <;> cases hi

/-- R112, R122: an operation is held exactly where it has no step. -/
theorem exec_eq_hold_iff (i : Instr) (s : State) : exec i s = .next (s.hold i) ↔ s.mustHold i = true := by
  cases i with
  | byteRead _ _ | byteWrite _ _ | forceOn _ | forceOff _ | exch _ => exact exec_request_eq_hold_iff rfl
  | respData => exact firstRead_eq_hold_iff (cls := .data)
  | respAck => exact firstRead_eq_hold_iff (cls := .ack)
  | respNak => exact firstRead_eq_hold_iff (cls := .nak)
  | respOther info => exact firstRead_eq_hold_iff (cls := .other info)
  | txDone _ => exact execTxDone_eq_hold_iff
  | push _ => exact execPush_eq_hold_iff
  | rdReq _ _ => exact execRdReq_eq_hold_iff
  | close _ | advance _ | cksum _ | hexenc _ | hexdec _ | reservedOp9 | reservedOpAB _ | reservedOpCF _ =>
    exact ⟨fun h => absurd rfl (ne_hold_of_held_eq ((exec_to h).held_eq rfl) _), fun h => by cases h⟩

/-- Settles O60: the equivalence above, with what `State.mustHold` says for each class; a `TX_DONE` needs no waiter on a closed
reader. -/
theorem heldExactlyWhereNoStep : Obligations.HeldExactlyWhereNoStep := by
  intro i s
  refine ⟨exec_eq_hold_iff i s, fun hi => ?_, ?_, ?_, ?_⟩
  · rw [← exec_eq_hold_iff, exec_request_eq_hold_iff hi]
    simp [State.busy]
  · rintro chunk rfl
    exact pushHeld_iff
  · rintro n τ rfl
    exact readHeld_iff
  · rintro status rfl h
    cases status with
    | err e => cases h
    | ok =>
      simp only [State.mustHold, Bool.and_eq_true, decide_eq_true_eq] at h
      obtain ⟨hst, hn⟩ := h
      obtain ⟨hfull, hlt⟩ := neededWaiter_iff.mp hn
      refine ⟨hst, ?_, hfull⟩
      by_contra hcl
      have hcl : s.srClosed = true := by simpa using hcl
      have hrx := rx_closed_reader (s := { s with exFrame := [], exSt := .rxFirst }) hcl 1
      have hdisp := dispatch_closed (s := State.rx 1 { s with exFrame := [], exSt := .rxFirst })
        ((kept_rx 1 { s with exFrame := [], exSt := .rxFirst }).closed.trans hcl)
      have hw : s.startDecoding.srWaiters = s.srWaiters := hdisp.2.trans hrx.2
      rw [hw] at hlt
      exact lt_irrefl _ hlt

/-! ### The response classes -/

/-- Settles O25: the rules of these classes end the exchange without a further read. -/
theorem oneByteResponsesEndExchange : Obligations.OneByteResponsesEndExchange := by
  intro s hf hr
  exact ⟨firstRead_completes (cls := .ack) hf hr (State.respond_ack _),
    firstRead_completes (cls := .nak) hf hr (State.respond_nak _),
    fun info => firstRead_completes (cls := .other info) hf hr (State.respond_other info _)⟩

/-- Settles O26: the start marker's rule is the decoder's read in RX_ACCUM, which waits on an empty queue and fails on a
closed reader. -/
theorem startMarkerBeginsAccumulation : Obligations.StartMarkerBeginsAccumulation := by
  intro s hf hr hq
  have hexec : exec .respData s = finish .respData s (s.answerFirst .data) := firstRead_answered (cls := .data) hf
  have hwaits (hcl : s.srClosed = false) :=
    rx_dispatch_waits (n := 1) (s := { s with exWid := none, exAcc := [], exSt := .rxAccum }) hcl (by simp [hq]) hr
  rw [hexec]
  refine ⟨fun hcl hfull => ?_, fun hcl hfull => ?_, fun hcl => ?_⟩
  · rw [finish_done (neededWaiter_of_room hfull)]
    exact congrArg _ (hwaits hcl)
  · rw [finish_full hfull, if_pos]
    · rfl
    · rw [State.answerFirst, State.respond_data, hwaits hcl]
      simp
  · have hclosed : s.answerFirst .data = _ :=
      rx_dispatch_closed (s := { s with exWid := none, exAcc := [], exSt := .rxAccum }) hcl hr
        (fun u hu => react_accum_closed hu s.srReason)
    rw [hclosed]
    exact finish_done (neededWaiter_of_le le_rfl)

/-- Settles O27: what the first read's result leads to is finished or held, and is refused where there is no result. -/
theorem responseNeedsFirstRead : Obligations.ResponseNeedsFirstRead := by
  intro s cls
  rw [exec_respClass_instr]
  refine ⟨fun hf => if_neg (by simp [hf]), fun hf hfull => ?_, fun hf hfull => ?_⟩
  · exact ⟨_, (firstRead_answered hf).trans (finish_done (neededWaiter_of_room hfull)), answerFirst_res cls s,
      kept_answerFirst cls s⟩
  · exact (firstRead_answered hf).trans (finish_full hfull)

/-- R61, R92 to R98: the class of the first read's result has its rule. -/
theorem react_first {s : State} {r : RdResult} {cls : RespClass} (h : s.exSt = .rxFirst) (hcls : firstClass s.cfg r = some cls) :
    s.react r = some (s.respond cls) := by
  simp only [State.react, h, hcls]

/-- Settles O28: the cascade gives the first result to the decoder, whose rule for it is the class's. -/
theorem cascadeRunsResponseClass : Obligations.CascadeRunsResponseClass := by
  intro s w r rest cls hr hw hf hcls hroom
  have hst : s.exSt = .rxFirst := by
    simp only [State.firstAnswered, Bool.and_eq_true, decide_eq_true_eq] at hf
    exact hf.1
  have hdisp : s.dispatch = State.answerFirst cls { s with res := rest } := by
    rw [dispatch_cons hr, State.dispatchEntry, if_pos hw, react_first (s := { s with res := rest, exWid := none }) hst hcls]
    rfl
  rw [exec_respClass_instr, firstRead_answered (s := { s with res := rest }) hf, ← hdisp]
  refine finish_done ?_
  rcases hroom with hfull | hle
  · exact neededWaiter_of_room hfull
  · exact neededWaiter_of_le hle

/-! ### `TX_DONE` -/

/-- Settles O37: outside the transport nothing is read. -/
theorem transportErrorEndsExchange : Obligations.TransportErrorEndsExchange := by
  intro s e hst hr
  exact (execTxDone_err e hst).trans (congrArg _ (dispatch_transportError hr e))

/-- R114: the completed write is finished or held with the decoder's first read. -/
theorem exec_txDone_ok {s : State} (h : s.exSt = .tx) : exec (.txDone .ok) s = finish (.txDone .ok) s s.startDecoding :=
  execTxDone_ok h

/-- Settles O38: the completed write is followed by the decoder's read in RX_FIRST. -/
theorem txDoneStartsDecoding : Obligations.TxDoneStartsDecoding := by
  intro s hst hr hq
  have hwaits (hcl : s.srClosed = false) :=
    rx_dispatch_waits (n := 1) (s := { s with exFrame := [], exSt := .rxFirst }) hcl (by simp [hq]) hr
  rw [exec_txDone_ok hst]
  refine ⟨fun hcl hfull => ?_, fun hcl hfull => ?_, fun hcl => ?_⟩
  · rw [finish_done (neededWaiter_of_room hfull)]
    exact congrArg _ (hwaits hcl)
  · rw [finish_full hfull, if_pos]
    · rfl
    · rw [State.startDecoding, hwaits hcl]
      simp
  · have hclosed : s.startDecoding = _ :=
      rx_dispatch_closed (s := { s with exFrame := [], exSt := .rxFirst }) hcl hr
        (fun u hu => react_first_closed hu s.srReason)
    rw [hclosed]
    exact finish_done (neededWaiter_of_le le_rfl)

theorem rx_exFrame (n : Nat) (s : State) : (s.rx n).exFrame = s.exFrame := by
  rcases rx_cases n s with ⟨-, e⟩ | ⟨-, -, e⟩ | ⟨-, -, e⟩
  all_goals
    rw [e]

/-- R24: outside TX no rule of the decoder writes the frame. -/
theorem dispatch_exFrame {s : State} (h : s.exFrame = []) : s.dispatch.exFrame = [] := by
  refine dispatch_induct (P := fun t => t.exFrame = []) (fun t w r rest _ ht => ?_) s h
  unfold State.dispatchEntry
  split
  · split
    · rename_i u hu
      obtain ⟨-, ⟨acc, st, -, -, -, -, -, rfl⟩ | ⟨x, rfl⟩⟩ := react_cases hu
      · exact (rx_exFrame _ _).trans ht
      · rfl
    · exact ht
  · exact ht

/-- Settles O39: in TX the transaction is finished or held, and its frame is emptied where it is finished. -/
theorem txDoneOnlyInTx : Obligations.TxDoneOnlyInTx := by
  intro s status
  refine ⟨fun hst => if_neg hst, fun hst hroom => ?_, fun hst hfull => ?_⟩
  · cases status with
    | ok =>
      exact ⟨_, (execTxDone_ok hst).trans (finish_done (neededWaiter_of_room (hroom rfl))), dispatch_exFrame (rx_exFrame _ _),
        startDecoding_res s, kept_startDecoding s⟩
    | err e => exact ⟨_, execTxDone_err e hst, dispatch_exFrame rfl, dispatch_res _, kept_transportError s e⟩
  · exact (execTxDone_ok hst).trans (finish_full hfull)

/-! ### `PUSH` and the standalone read -/

/-- Settles O40: R123's cases in order, each with its equation. -/
theorem pushBuffersHoldsOrRefuses : Obligations.PushBuffersHoldsOrRefuses := by
  intro s chunk
  refine ⟨fun hcl => execPush_closed hcl chunk, fun hcl hf => ⟨?_, fun hw hr => ?_⟩, fun hcl hf => ⟨?_, ?_⟩⟩
  · exact ⟨_, execPush_fits hcl hf, settle_res _, kept_push s chunk⟩
  · exact (execPush_fits hcl hf).trans (congrArg _ (settle_none (s := { s with srQ := s.srQ ++ chunk }) hw hr))
  · exact execPush_held hcl hf
  · exact execPush_refused hcl hf

/-- The result of a read that is not the decoder's goes out on the read port (R126). -/
theorem dispatch_one_emitted {s : State} {w : Nat} {r : RdResult} (hr : s.res = [(w, r)]) (hw : s.exWid ≠ some w) :
    s.dispatch = { s with res := [], out := s.out ++ [.rdResp w r] } := by
  rw [dispatch_cons hr, State.dispatchEntry, if_neg hw]
  exact dispatch_nil rfl

/-- Settles O42: the read fails, is served or waits by R124's cases, and its result goes out at once. -/
theorem readRequestByRule : Obligations.ReadRequestByRule := by
  intro s n t hr hw
  have issued (h : s.readHeld n = false) : exec (.rdReq n t) s = .next (s.read n t).dispatch := execRdReq_issued h
  have hone (r : RdResult) : s.res ++ [(s.srNextWid, r)] = [(s.srNextWid, r)] := by rw [hr, List.nil_append]
  refine ⟨fun hcl => ?_, fun hcl hn => ?_, fun hcl hn hfull => ?_, fun hcl hn hfull => ?_⟩
  · rw [issued (readHeld_eq_false (.inl hcl)), read_closed hcl]
    refine congrArg _ ((dispatch_one_emitted (w := s.srNextWid) (r := (.closed s.srReason)) ?_ ?_).trans ?_)
    · exact hone _
    · exact hw
    · rw [← hr]
  · rw [issued (readHeld_eq_false (.inr (.inl hn))), read_served hcl hn]
    refine congrArg _ ((dispatch_one_emitted (w := s.srNextWid) (r := (.ok (s.srQ.take n))) ?_ ?_).trans ?_)
    · exact hone _
    · exact hw
    · rw [← hr]
  · rw [issued (readHeld_eq_false (.inr (.inr hfull))), read_waits hcl hn]
    exact congrArg _ (dispatch_nil hr)
  · exact execRdReq_eq_hold_iff.mpr (readHeld_iff.mpr ⟨hcl, hn, hfull⟩)

/-! ### The state RX_ACCUM -/

theorem accFull_of_fits {s : State} (h : withinBound (s.exAcc.length + 1) s.cfg.maxRespHex = true) : s.accFull = false := by
  unfold State.accFull
  split
  · rfl
  · rename_i m hm
    rw [hm] at h
    simp only [withinBound, decide_eq_true_eq] at h
    simpa using h

theorem accumulate_end {s : State} {b : Byte} (h : b = s.cfg.pEnd) : s.accumulate b = State.rx 2 { s with exSt := .rxCksum } :=
  if_pos h

theorem accumulate_char {s : State} {b : Byte} (h : b ≠ s.cfg.pEnd) (hf : s.accFull = false) :
    s.accumulate b = State.rx 1 { s with exAcc := s.exAcc ++ [b] } := by
  simp [State.accumulate, h, hf]

theorem react_accum_byte {s : State} (h : s.exSt = .rxAccum) (b : Byte) : s.react (.ok [b]) = some (s.accumulate b) := by
  simp only [State.react, h]

theorem react_accum_timeout {s : State} (h : s.exSt = .rxAccum) :
    s.react .timeout = some (s.complete (.err (.malformedResponse .m2Timeout))) := by
  simp only [State.react, h, State.raise_eq]

/-- R90: the decoder's rule runs on the one result that is left. -/
theorem dispatch_reacts {s t : State} {w : Nat} {r : RdResult} (hr : s.res = [(w, r)]) (hw : s.exWid = some w)
    (ht : State.react r { s with res := [], exWid := none } = some t) : s.dispatch = t.dispatch := by
  rw [dispatch_cons hr, State.dispatchEntry, if_pos hw, ht]

/-- Settles O30: past the first byte the step goes on with the dispatch, whose one result is the decoder's. -/
theorem accumulationByRule : Obligations.AccumulationByRule := by
  intro s w r hc hst hr hw hq
  have hne : s.exSt ≠ .rxFirst := by simp [hst]
  refine ⟨?_, ?_, ?_, ?_⟩
  · rintro b rfl hb hfit hcl -
    rw [step_goes_on hc hne hr, dispatch_reacts hr hw (react_accum_byte (s := { s with res := [], exWid := none }) hst b),
      accumulate_char (s := { s with res := [], exWid := none }) hb (accFull_of_fits hfit)]
    exact congrArg _ (rx_dispatch_waits hcl (by simp [hq]) rfl)
  · rintro rfl hcl -
    rw [step_goes_on hc hne hr, dispatch_reacts hr hw (react_accum_byte (s := { s with res := [], exWid := none }) hst _),
      accumulate_end (s := { s with res := [], exWid := none }) rfl]
    exact congrArg _ (rx_dispatch_waits hcl (by simp [hq]) rfl)
  · rintro reason rfl
    exact step_completes hc hne hr hw (react_accum_closed (s := { s with res := [], exWid := none }) hst reason)
  · rintro rfl
    exact step_completes hc hne hr hw (react_accum_timeout (s := { s with res := [], exWid := none }) hst)

end Sys2Proof.Machine
end

section
/-! PROOFS. What a step takes next (log entries 1, 2, 3, 8): a result under way, a held operation, a presented one, or
nothing. -/

namespace Sys2Proof.Machine

theorem step_instr {s s' : State} {i : Instr} (hc : s.cfg.legal = true) (h : fetch s = .instr i s') : step s = exec i s' := by
  rw [step, if_pos hc, h]

/-! ### Presented operations -/

/-- With nothing under way and no held operation that goes, the step looks at the input. -/
theorem fetch_input {s : State} (hr : s.res = []) (hn : s.noneGoes s.held) : fetch s = fetchInput s := by
  simp only [fetch, hr, pickHeld_eq_none hn]

theorem fetchInput_decoded {s : State} {p : Packet} {ps : List Packet} {i : Instr} (hi : s.inp = p :: ps)
    (hch : p.chan ≠ .response) (hd : decodePacket s.cfg p = .ok i) :
    fetchInput s = if s.blocked i then .wait i { s with inp := ps } else .instr i { s with inp := ps } := by
  simp only [fetchInput, hi, if_neg hch, hd]

/-- Settles O20: the packet at the front of the input is refused, decoded and run, or decoded and blocked. -/
theorem stepRunsPresented : Obligations.StepRunsPresented := by
  intro s p ps hc hr hn hi
  have hf := fetch_input hr hn
  refine ⟨fun hch => ?_, fun hch => ⟨fun e hd => ?_, fun i hd => ⟨fun hfree => ?_, fun hcls hbehind => ?_⟩⟩⟩
  · simp only [step, if_pos hc, hf, fetchInput, hi, if_pos hch]
  · simp only [step, if_pos hc, hf, fetchInput, hi, if_neg hch, hd]
  · have hb : ¬s.blocked i = true := by
      rw [blocked_iff]
      rintro ⟨hcls, j, hj, hji⟩
      exact (hfree j hj).elim hcls (absurd hji)
    refine step_instr hc ?_
    rw [hf, fetchInput_decoded hi hch hd, if_neg hb]
  · rw [step, if_pos hc, hf, fetchInput_decoded hi hch hd, if_pos (blocked_iff.mpr ⟨hcls, hbehind⟩)]
    rfl

/-! ### A result under way -/

/-- Settles O21: the class of the result names the operation, whose meaning is the delivery of the result. -/
theorem stepRunsFirstRead : Obligations.StepRunsFirstRead := by
  intro s w r rest cls hc hr hw hf hcls
  rw [step_of_first_read hc hr hw hf hcls, exec_respClass_instr]

/-! ### Held operations -/

/-- R112, R122: the oldest held operation that can go is the one the step runs. -/
theorem step_held {s : State} {pre post : List Instr} {i : Instr} (hc : s.cfg.legal = true) (hr : s.res = [])
    (hh : s.held = pre ++ i :: post) (hp : s.noneGoes pre) (hi : ¬s.cannotGo pre i) :
    step s = exec i { s with held := pre ++ post } := by
  refine step_instr hc ?_
  simp only [fetch, hr, hh, pickHeld_eq_some hp hi]

/-- An operation that has a step, with none of its class before it, goes. -/
theorem not_cannotGo {s : State} {pre : List Instr} {i : Instr} (hm : s.mustHold i = false)
    (hcls : ∀ j ∈ pre, holdClass j ≠ holdClass i) : ¬s.cannotGo pre i := by
  rintro (h | ⟨j, hj, hji⟩)
  · simp [hm] at h
  · exact hcls j hj hji

theorem mustHold_txDone_of_room {s : State} (h : s.waitersFull = false) (status : TxStatus) :
    s.mustHold (.txDone status) = false := by
  cases status with
  | ok => simp [State.mustHold, neededWaiter_of_room h]
  | err e => rfl

/-- Settles O22: each of the conditions on a push, a read and a completion gives the operation a step. -/
theorem stepTakesHeldThenIdles : Obligations.StepTakesHeldThenIdles := by
  intro s hc hr
  refine ⟨fun pre i post hh hp hi => step_held hc hr hh hp hi, fun pre chunk post hh hp hcls hfit => ?_,
    fun pre n τ post hh hp hcls hgo => ?_, fun pre status post hh hp hcls hroom => ?_, fun hn hi => ?_⟩
  · have hm : s.mustHold (.push chunk) = false := by
      simp [State.mustHold, State.pushHeld, State.chunkFits, hfit]
    exact step_held hc hr hh hp (not_cannotGo hm hcls)
  · exact step_held hc hr hh hp (not_cannotGo (readHeld_eq_false hgo) hcls)
  · exact step_held hc hr hh hp (not_cannotGo (mustHold_txDone_of_room hroom status) hcls)
  · simp only [step, if_pos hc, fetch_input hr hn, fetchInput, hi]

theorem holdClass_of_requestOf {i : Instr} {req : Request} (h : requestOf i = some req) : holdClass i = some .request := by
  cases i with
  | byteRead _ _ | byteWrite _ _ | forceOn _ | forceOff _ | exch _ => rfl
  | _ => cases h

/-- A request is held exactly while an exchange is in flight (R112). -/
theorem mustHold_request {i : Instr} {s : State} (hi : holdClass i = some .request) : s.mustHold i = s.busy := by
  cases i with
  | byteRead _ _ | byteWrite _ _ | forceOn _ | forceOff _ | exch _ => rfl
  | _ => cases hi

/-- Settles O23: in an idle block the oldest held request has a step, which accepts it. -/
theorem heldRequestAccepted : Obligations.HeldRequestAccepted := by
  intro s i req pre post hc hr hst hh hp hcls hreq hrefuse
  have hi := holdClass_of_requestOf hreq
  have hm : s.mustHold i = false := by
    rw [mustHold_request hi]
    simp [State.busy, hst]
  rw [step_held hc hr hh hp (not_cannotGo hm (hi ▸ hcls))]
  exact exec_request_accepted (s := { s with held := pre ++ post }) hreq hst hrefuse

end Sys2Proof.Machine
end

section
/-! PROOFS. The full block, where the decoder's is the one pending read (spec/44_stream_reader.md R122): a response as it
arrives, whole and in parts, and the reads that fail (spec/41_frame_decode.md R92 to R98). -/

namespace Sys2Proof.Machine

/-! ### The decoder waits, whatever is buffered -/

/-- The decoder waits for the read `w` and no other read is pending: `State.awaiting` but for the number of buffered bytes. -/
structure State.Waits (s : State) (w : Waiter) : Prop where
  waiters : s.srWaiters = [w]
  wid : s.exWid = some w.wid
  size : w.size = s.exSt.readSize
  isOpen : s.srClosed = false
  settled : s.res = []

/-- The decoder makes the read of its state, and goes on as long as enough bytes are buffered. -/
def State.decodeOn (s : State) : State := (s.await s.exSt.readSize).settle

theorem waits_await {s : State} (hcl : s.srClosed = false) (hr : s.res = []) :
    (s.await s.exSt.readSize).Waits ⟨s.srNextWid, s.exSt.readSize, s.now + s.cfg.readTimeout⟩ :=
  ⟨rfl, rfl, rfl, hcl, hr⟩

/-- Too few bytes: the decoder is left waiting. -/
theorem decodeOn_short {s : State} (hr : s.res = []) (hq : s.srQ.length < s.exSt.readSize) :
    s.decodeOn = s.await s.exSt.readSize :=
  settle_short rfl hq hr

theorem execPush_awaiting {s : State} {st : ExSt} {w : Waiter} {chunk : Bytes} (h : s.awaiting st w)
    (hf : s.chunkFits chunk = true) :
    exec (.push chunk) s = .next (State.settle { s with srQ := s.srQ ++ chunk }) ∧
      ({ s with srQ := s.srQ ++ chunk } : State).Waits w ∧ s.exSt = st ∧ s.srQ.length < st.readSize := by
  obtain ⟨hst, hwid, hws, hsize, hq, hcl, hr⟩ := h
  refine ⟨execPush_fits hcl hf, ⟨hws, hwid, ?_, hcl, hr⟩, hst, hsize ▸ hq⟩
  rw [hsize, hst]

/-- A read of one byte waits only while nothing is buffered. -/
theorem queue_eq_nil {q : Bytes} {st : ExSt} (h : q.length < st.readSize) (hst : st.readSize = 1) : q = [] := by
  rw [hst, Nat.lt_one_iff] at h
  exact List.eq_nil_of_length_eq_zero h

/-- The decoder's read has been answered, with `left` still buffered behind the bytes it was given. -/
def State.given (left : Bytes) (s : State) : State := { s with srWaiters := [], srQ := left, exWid := none }

/-! ### One read of the decoder -/

section
variable {s : State} {w : Waiter} {b : Byte} {left : Bytes}

/-- R92. -/
theorem State.Waits.start (h : s.Waits w) (hst : s.exSt = .rxFirst) (hq : s.srQ = s.cfg.pStart :: left) :
    s.settle = State.decodeOn { s with srQ := left, exAcc := [], exSt := .rxAccum } := by
  refine settle_read (bs := [s.cfg.pStart]) h.waiters h.wid h.settled hq ?_ h.isOpen ?_
  · rw [h.size, hst]
    rfl
  · exact react_first (s := s.given left) (cls := .data) hst (congrArg some (if_pos rfl))

/-- R96 to R98. -/
theorem classifyByte_of_ne_pStart (c : Config) {b : Byte} (hb : b ≠ c.pStart) (s : State) :
    State.respond (classifyByte c b) s = s.complete (firstByteResult c b) := by
  rw [classifyByte, if_neg hb, firstByteResult]
  split
  · rfl
  split
  · rfl
  · rfl

theorem State.Waits.other (h : s.Waits w) (hst : s.exSt = .rxFirst) (hb : b ≠ s.cfg.pStart) (hq : s.srQ = b :: left) :
    s.settle = State.complete (firstByteResult s.cfg b) { s with srWaiters := [], srQ := left } := by
  refine settle_complete (bs := [b]) h.waiters h.wid h.settled hq ?_ ?_
  · rw [h.size, hst]
    rfl
  · exact (react_first (s := s.given left) (cls := classifyByte s.cfg b) hst rfl).trans
      (congrArg some (classifyByte_of_ne_pStart s.cfg hb _))

/-- R93, a character. -/
theorem State.Waits.char (h : s.Waits w) (hst : s.exSt = .rxAccum) (hb : b ≠ s.cfg.pEnd) (hf : s.accFull = false)
    (hq : s.srQ = b :: left) : s.settle = State.decodeOn { s with srQ := left, exAcc := s.exAcc ++ [b] } := by
  have hone : s.exSt.readSize = 1 := by rw [hst]; rfl
  refine settle_read (bs := [b]) (st := s.exSt) h.waiters h.wid h.settled hq (by rw [h.size, hone]; rfl) h.isOpen ?_
  rw [hone]
  exact (react_accum_byte (s := s.given left) hst b).trans (congrArg some (accumulate_char hb hf))

/-- R93, the end marker. -/
theorem State.Waits.endMarker (h : s.Waits w) (hst : s.exSt = .rxAccum) (hq : s.srQ = s.cfg.pEnd :: left) :
    s.settle = State.decodeOn { s with srQ := left, exSt := .rxCksum } := by
  refine settle_read (bs := [s.cfg.pEnd]) (acc := s.exAcc) h.waiters h.wid h.settled hq ?_ h.isOpen ?_
  · rw [h.size, hst]
    rfl
  · exact (react_accum_byte (s := s.given left) hst _).trans (congrArg some (accumulate_end rfl))

theorem accumulate_full {s : State} {b : Byte} (hb : b ≠ s.cfg.pEnd) (hf : s.accFull = true) :
    s.accumulate b = s.complete (.err (.malformedResponse .m3Overflow)) := by
  rw [State.accumulate, if_neg hb, if_pos hf, State.raise_eq]

/-- R93, a character that finds the accumulator full. -/
theorem State.Waits.overflow (h : s.Waits w) (hst : s.exSt = .rxAccum) (hb : b ≠ s.cfg.pEnd) (hf : s.accFull = true)
    (hq : s.srQ = b :: left) :
    s.settle = State.complete (.err (.malformedResponse .m3Overflow)) { s with srWaiters := [], srQ := left } := by
  refine settle_complete (bs := [b]) h.waiters h.wid h.settled hq ?_ ?_
  · rw [h.size, hst]
    rfl
  · exact (react_accum_byte (s := s.given left) hst b).trans (congrArg some (accumulate_full hb hf))

/-- R95: the verdict on the accumulated characters. -/
theorem verify_eq_complete (ck : Bytes) (s : State) : s.verify ck = s.complete (responseVerdict s.cfg s.exAcc ck) := by
  unfold State.verify responseVerdict
  split
  · rfl
  · cases hexDecode s.exAcc with
    | error e => rfl
    | ok p => rfl

/-- R95. -/
theorem State.Waits.checksum {c1 c2 : Byte} (h : s.Waits w) (hst : s.exSt = .rxCksum) (hq : s.srQ = c1 :: c2 :: left) :
    s.settle = State.complete (responseVerdict s.cfg s.exAcc [c1, c2]) { s with srWaiters := [], srQ := left } := by
  refine settle_complete (bs := [c1, c2]) h.waiters h.wid h.settled hq ?_ ?_
  · rw [h.size, hst]
    rfl
  · exact (react_cksum_pair (s := s.given left) hst c1 c2).trans (congrArg some (verify_eq_complete _ _))

end

/-! ### The characters of a response -/

/-- R93: characters that the accumulator can hold join it, one read each. -/
theorem decodeOn_chars (h : Bytes) {s : State} {left : Bytes} (hcl : s.srClosed = false) (hr : s.res = [])
    (hst : s.exSt = .rxAccum) (hend : s.cfg.pEnd ∉ h) (hfit : withinBound (s.exAcc.length + h.length) s.cfg.maxRespHex = true)
    (hq : s.srQ = h ++ left) :
    s.decodeOn = State.decodeOn { s with
      srNextWid := s.srNextWid + h.length, srQ := left, exAcc := s.exAcc ++ h } := by
  induction h generalizing s with
  | nil =>
    rw [List.nil_append] at hq
    rw [← hq, List.append_nil]
    rfl
  | cons b h ih =>
    have hb : b ≠ s.cfg.pEnd := fun e => hend (e ▸ List.mem_cons_self)
    have hf : s.accFull = false := accFull_of_fits (withinBound_mono (by simp) hfit)
    have hchar : s.decodeOn = State.decodeOn { s with
        srNextWid := s.srNextWid + 1, srQ := h ++ left, exAcc := s.exAcc ++ [b] } :=
      (waits_await hcl hr).char hst hb hf hq
    have hrest : withinBound ((s.exAcc ++ [b]).length + h.length) s.cfg.maxRespHex = true := by
      rw [List.length_append, List.length_singleton, Nat.add_assoc, Nat.add_comm 1]
      exact hfit
    rw [hchar, ih (s := { s with srNextWid := s.srNextWid + 1, srQ := h ++ left, exAcc := s.exAcc ++ [b] }) hcl hr hst
      (fun hm => hend (.tail _ hm)) hrest rfl]
    simp only [List.append_assoc, List.singleton_append, List.length_cons, Nat.add_assoc, Nat.add_comm 1]

/-- R93: a read that is pending takes the first of the characters, each of the others a read of its own. -/
theorem State.Waits.chars {s : State} {w : Waiter} {b : Byte} {h left : Bytes} (hw : s.Waits w) (hst : s.exSt = .rxAccum)
    (hend : s.cfg.pEnd ∉ b :: h) (hfit : withinBound (s.exAcc.length + (b :: h).length) s.cfg.maxRespHex = true)
    (hq : s.srQ = b :: h ++ left) :
    s.settle = State.decodeOn { s with
      srNextWid := s.srNextWid + h.length, srQ := left, exAcc := s.exAcc ++ b :: h } := by
  have hb : b ≠ s.cfg.pEnd := fun e => hend (e ▸ List.mem_cons_self)
  have hf : s.accFull = false := accFull_of_fits (withinBound_mono (by simp) hfit)
  have hrest : withinBound ((s.exAcc ++ [b]).length + h.length) s.cfg.maxRespHex = true := by
    rw [List.length_append, List.length_singleton, Nat.add_assoc, Nat.add_comm 1]
    exact hfit
  rw [hw.char (left := h ++ left) hst hb hf hq,
    decodeOn_chars h (s := { s with srQ := h ++ left, exAcc := s.exAcc ++ [b] }) hw.isOpen hw.settled hst
      (fun hm => hend (.tail _ hm)) hrest rfl]
  simp only [List.append_assoc, List.singleton_append]

/-- R93: the characters up to the end marker, of which the pending read takes the first or the marker itself. -/
theorem State.Waits.text {s : State} {w : Waiter} {h left : Bytes} (hw : s.Waits w) (hst : s.exSt = .rxAccum)
    (hend : s.cfg.pEnd ∉ h) (hfit : withinBound (s.exAcc.length + h.length) s.cfg.maxRespHex = true)
    (hq : s.srQ = h ++ s.cfg.pEnd :: left) :
    s.settle = State.decodeOn { s with
      srNextWid := s.srNextWid + h.length, srQ := left, exAcc := s.exAcc ++ h, exSt := .rxCksum } := by
  cases h with
  | nil =>
    rw [hw.endMarker hst hq, List.append_nil]
    rfl
  | cons b h =>
    rw [hw.chars hst hend hfit hq]
    exact (waits_await (s := { s with
      srNextWid := s.srNextWid + h.length, srQ := s.cfg.pEnd :: left, exAcc := s.exAcc ++ b :: h }) hw.isOpen
      hw.settled).endMarker hst rfl

/-- R93, R95: the rest of a response, from its first character on. -/
theorem State.Waits.response {s : State} {w : Waiter} {h left : Bytes} {c1 c2 : Byte} (hw : s.Waits w) (hst : s.exSt = .rxAccum)
    (hend : s.cfg.pEnd ∉ h) (hfit : withinBound (s.exAcc.length + h.length) s.cfg.maxRespHex = true)
    (hq : s.srQ = h ++ s.cfg.pEnd :: c1 :: c2 :: left) :
    s.settle = State.complete (responseVerdict s.cfg (s.exAcc ++ h) [c1, c2]) { s with
      srNextWid := s.srNextWid + h.length + 1, srWaiters := [], srQ := left } := by
  rw [hw.text hst hend hfit hq]
  exact (waits_await (s := { s with
    srNextWid := s.srNextWid + h.length, srQ := c1 :: c2 :: left, exAcc := s.exAcc ++ h, exSt := .rxCksum }) hw.isOpen
    hw.settled).checksum rfl rfl

/-- R92 to R95: a whole DATA response. -/
theorem State.Waits.dataResponse {s : State} {w : Waiter} {h left : Bytes} {c1 c2 : Byte} (hw : s.Waits w)
    (hst : s.exSt = .rxFirst) (hend : s.cfg.pEnd ∉ h) (hfit : withinBound h.length s.cfg.maxRespHex = true)
    (hq : s.srQ = s.cfg.pStart :: (h ++ s.cfg.pEnd :: c1 :: c2 :: left)) :
    s.settle = State.complete (responseVerdict s.cfg h [c1, c2]) { s with
      srNextWid := s.srNextWid + h.length + 2, srWaiters := [], srQ := left } := by
  rw [hw.start hst hq]
  have hnext : s.srNextWid + h.length + 2 = s.srNextWid + 1 + h.length + 1 := by omega
  have hfit' : withinBound (0 + h.length) s.cfg.maxRespHex = true := by rwa [Nat.zero_add]
  rw [hnext]
  exact (waits_await (s := { s with
    srQ := h ++ s.cfg.pEnd :: c1 :: c2 :: left, exAcc := [], exSt := .rxAccum }) hw.isOpen hw.settled).response rfl hend
    hfit' rfl

/-! ### Responses that `PUSH` brings -/

/-- Settles O32: the pending read takes the start marker, and the rest is R93's and R95's. -/
theorem dataResponseDecoded : Obligations.DataResponseDecoded := by
  intro s w h left c1 c2 _ ha hend hfit hf
  obtain ⟨hexec, hw, hst, hq⟩ := execPush_awaiting ha hf
  rw [queue_eq_nil hq rfl, List.nil_append] at hexec hw
  rw [hexec, hw.dataResponse (h := h) (left := left) (c1 := c1) (c2 := c2) hst hend hfit (by simp)]
  rfl

/-- Settles O34: after as many characters as the accumulator holds, the next one finds it full. -/
theorem overflowEndsExchange : Obligations.OverflowEndsExchange := by
  intro s w h left b _ ha hend hb hmax hf
  obtain ⟨hexec, hw, hst, hq⟩ := execPush_awaiting ha hf
  rw [queue_eq_nil hq rfl, List.nil_append] at hexec hw
  have hstart := hw.start (left := h ++ b :: left) hst (by simp)
  have hchars := decodeOn_chars h (left := b :: left) (s := { s with srQ := h ++ b :: left, exAcc := [], exSt := .rxAccum })
    hw.isOpen hw.settled rfl hend (by simp [hmax, withinBound]) rfl
  rw [hexec, hstart, hchars]
  refine congrArg _ ((waits_await (s := { s with
    srNextWid := s.srNextWid + h.length, srQ := b :: left, exAcc := h, exSt := .rxAccum }) hw.isOpen hw.settled).overflow
    rfl hb ?_ rfl)
  simp [State.accFull, State.await, hmax]

/-- R92, R93: a part with the start marker and characters leaves the decoder waiting for one byte. -/
theorem State.Waits.startPart {s : State} {w : Waiter} {h : Bytes} (hw : s.Waits w) (hst : s.exSt = .rxFirst)
    (hend : s.cfg.pEnd ∉ h) (hfit : withinBound h.length s.cfg.maxRespHex = true) (hq : s.srQ = s.cfg.pStart :: h) :
    s.settle = State.await 1 { s with
      srNextWid := s.srNextWid + h.length, srQ := [], exAcc := h, exSt := .rxAccum } := by
  have hfit' : withinBound (0 + h.length) s.cfg.maxRespHex = true := by rwa [Nat.zero_add]
  rw [hw.start hst hq, decodeOn_chars h (left := []) (s := { s with srQ := h, exAcc := [], exSt := .rxAccum }) hw.isOpen
    hw.settled rfl hend hfit' (List.append_nil h).symm]
  exact decodeOn_short hw.settled Nat.one_pos

/-- R93: a part with characters alone leaves the decoder waiting for one byte more. -/
theorem State.Waits.charsPart {s : State} {w : Waiter} {b : Byte} {h : Bytes} (hw : s.Waits w) (hst : s.exSt = .rxAccum)
    (hend : s.cfg.pEnd ∉ b :: h) (hfit : withinBound (s.exAcc.length + (b :: h).length) s.cfg.maxRespHex = true)
    (hq : s.srQ = b :: h) :
    s.settle = State.await 1 { s with srNextWid := s.srNextWid + h.length, srQ := [], exAcc := s.exAcc ++ b :: h } := by
  have hone : s.exSt.readSize = 1 := by rw [hst]; rfl
  rw [hw.chars (left := []) hst hend hfit (by rw [hq, List.append_nil]), ← hone]
  exact decodeOn_short hw.settled (by rw [hone]; exact Nat.one_pos)

/-- R93, R95: a part with the end marker and at most one checksum character leaves the decoder waiting for two. -/
theorem State.Waits.endPart {s : State} {w : Waiter} {h tail : Bytes} (hw : s.Waits w) (hst : s.exSt = .rxAccum)
    (hend : s.cfg.pEnd ∉ h) (hfit : withinBound (s.exAcc.length + h.length) s.cfg.maxRespHex = true)
    (hq : s.srQ = h ++ s.cfg.pEnd :: tail) (htail : tail.length ≤ 1) :
    s.settle = State.await 2 { s with
      srNextWid := s.srNextWid + h.length, srQ := tail, exAcc := s.exAcc ++ h, exSt := .rxCksum } := by
  rw [hw.text hst hend hfit hq]
  exact decodeOn_short hw.settled (Nat.lt_succ_of_le htail)

/-- Settles O59: the pending read and the reads after it take the part's bytes, and where too few are left for the next read
the decoder waits. -/
theorem responseInPartsAccumulates : Obligations.ResponseInPartsAccumulates := by
  intro s w h chunk _ hend hf hfit
  refine ⟨fun ha hacc hch => ?_, fun ha hch k hk => ?_, fun tail ha hch htail => ?_, fun c1 c2 left ha hch => ?_,
    fun c1 c2 left ha hq => ?_⟩
  · obtain ⟨hexec, hw, hst, hq⟩ := execPush_awaiting ha hf
    obtain rfl := hch
    rw [queue_eq_nil hq rfl, List.nil_append] at hexec hw
    have hfit' : withinBound h.length s.cfg.maxRespHex = true := by rwa [hacc, List.length_nil, Nat.zero_add] at hfit
    rw [hexec, hw.startPart hst hend hfit' rfl, queue_eq_nil hq rfl]
    rfl
  · obtain ⟨hexec, hw, hst, hq⟩ := execPush_awaiting ha hf
    obtain rfl := hch
    rw [queue_eq_nil hq rfl, List.nil_append] at hexec hw
    obtain ⟨b, h, rfl⟩ := List.exists_cons_of_length_eq_add_one hk
    obtain rfl := Nat.succ.inj hk
    rw [hexec, hw.charsPart hst hend hfit rfl, queue_eq_nil hq rfl]
    rfl
  · obtain ⟨hexec, hw, hst, hq⟩ := execPush_awaiting ha hf
    obtain rfl := hch
    rw [queue_eq_nil hq rfl, List.nil_append] at hexec hw
    rw [hexec, hw.endPart hst hend hfit rfl htail]
    rfl
  · obtain ⟨hexec, hw, hst, hq⟩ := execPush_awaiting ha hf
    obtain rfl := hch
    rw [queue_eq_nil hq rfl, List.nil_append] at hexec hw
    rw [hexec, hw.response hst hend hfit rfl]
    rfl
  · obtain ⟨hexec, hw, hst, -⟩ := execPush_awaiting ha hf
    rw [hexec, hw.checksum hst hq]
    rfl

/-! ### Responses that `TX_DONE` finds -/

/-- R106: the verdict on a peer's response for the payload `p` is `p`. -/
theorem responseVerdict_hexEncode (c : Config) (p : Bytes) {ck : Bytes}
    (hck : ck = ckRender (ckSum (hexEncode p ++ [c.pEnd]))) : responseVerdict c (hexEncode p) ck = .ok p := by
  rw [responseVerdict, if_neg (not_not_intro hck), hexDecode_hexEncode]

/-- Settles O33: the decoder's first read is served from the queue, as if it had waited and the response were pushed. -/
theorem earlyResponseDecodedAtTxDone : Obligations.EarlyResponseDecodedAtTxDone := by
  intro s p left hc hst hacc hr hws hcl hfit hq
  obtain ⟨c1, c2, hck⟩ := List.length_eq_two.mp (ckRender_length (ckSum (hexEncode p ++ [s.cfg.pEnd])))
  have hq' : s.srQ = s.cfg.pStart :: (hexEncode p ++ s.cfg.pEnd :: c1 :: c2 :: left) := by
    rw [hq, dataResponse, hck]
    simp
  have hdone : s.startDecoding = State.complete (.ok p) { s with
      srNextWid := s.srNextWid + 2 * p.length + 3, srWaiters := [], srQ := left } := by
    have hnext : s.srNextWid + 2 * p.length + 3 = s.srNextWid + 1 + (hexEncode p).length + 2 := by
      rw [hexEncode_length]
      omega
    rw [State.startDecoding, rx_settle 1 (s := { s with exFrame := [], exSt := .rxFirst }) hws hcl hr, hnext,
      ← responseVerdict_hexEncode s.cfg p hck.symm]
    exact (waits_await (s := { s with exFrame := [], exSt := .rxFirst }) hcl hr).dataResponse rfl
      (pEnd_not_mem_hexEncode hc p) (by rwa [hexEncode_length]) hq'
  rw [exec_txDone_ok hst, hdone,
    finish_done (neededWaiter_of_le (Nat.zero_le _)), ← hws]
  rfl

/-- R96 to R98: a first byte that is no start marker, buffered when the decoder asks for it, ends the exchange. -/
theorem startDecoding_other {s : State} {b : Byte} {left : Bytes} (hr : s.res = []) (hcl : s.srClosed = false)
    (hb : b ≠ s.cfg.pStart) (hq : s.srQ = b :: left) :
    s.startDecoding = State.complete (firstByteResult s.cfg b) { s with srNextWid := s.srNextWid + 1, srQ := left } := by
  rw [State.startDecoding, rx_served (s := { s with exFrame := [], exSt := .rxFirst }) hcl (by simp [hq])]
  refine (dispatch_completes (w := s.srNextWid) (r := .ok [b]) (x := firstByteResult s.cfg b) ?_ rfl ?_).trans ?_
  · rw [hr, hq]
    rfl
  · refine (react_first (cls := classifyByte s.cfg b) rfl rfl).trans ?_
    exact congrArg some (classifyByte_of_ne_pStart s.cfg hb _)
  · rw [← hr, hq]
    rfl

/-- Settles O58: every byte that is no start marker ends the exchange with R96's to R98's result, whether the decoder waits for
it or finds it buffered. -/
theorem oneByteResponsesDecoded : Obligations.OneByteResponsesDecoded := by
  intro s b left _ hb
  refine ⟨fun w ha hf => ?_, fun hst hr hcl hq => ?_⟩
  · obtain ⟨hexec, hw, hst, hq⟩ := execPush_awaiting ha hf
    rw [queue_eq_nil hq rfl, List.nil_append] at hexec hw
    rw [hexec, hw.other hst hb rfl]
    rfl
  · rw [exec_txDone_ok hst,
      startDecoding_other hr hcl hb hq]
    exact finish_done (neededWaiter_of_le le_rfl)

/-! ### Reads of the decoder that fail -/

/-- R94, R95, R98: a read that fails by a close ends the exchange with the error of its state. -/
theorem react_closed {s : State} {reason : Option Reason} {e : ExErr} (h : readFailure s.exSt (some reason) = some e) :
    s.react (.closed reason) = some (s.complete (.err e)) := by
  cases hst : s.exSt with
  | idle | tx => rw [hst] at h; cases h
  | rxFirst => rw [hst] at h; cases h; exact react_first_closed hst reason
  | rxAccum => rw [hst] at h; cases h; exact react_accum_closed hst reason
  | rxCksum => rw [hst] at h; cases h; exact react_cksum_failed hst (.inr ⟨reason, rfl⟩)

/-- R94, R95, R98: so does one that times out. -/
theorem react_timeout {s : State} {e : ExErr} (h : readFailure s.exSt none = some e) :
    s.react .timeout = some (s.complete (.err e)) := by
  cases hst : s.exSt with
  | idle | tx => rw [hst] at h; cases h
  | rxFirst => rw [hst] at h; cases h; exact react_first hst (cls := .other .timeout) rfl
  | rxAccum => rw [hst] at h; cases h; exact react_accum_timeout hst
  | rxCksum => rw [hst] at h; cases h; exact react_cksum_failed hst (.inl rfl)

/-- Settles O35: the close fails the one pending read, whose result is the decoder's. -/
theorem closeEndsExchange : Obligations.CloseEndsExchange := by
  rintro s st w reason e ⟨rfl, hwid, hws, -, -, hcl, hr⟩ he
  refine (execClose_open reason hcl).trans (congrArg _ ?_)
  refine (dispatch_completes (w := w.wid) (r := .closed reason) (x := .err e) ?_ ?_ ?_).trans ?_
  · simp [hr, hws]
  · exact hwid
  · exact react_closed he
  · simp [State.complete, State.emit, State.failWaiters, hws, hr]

/-- Settles O36: the one waiter expires, and its result is the decoder's; or it stays, and nothing can be served. -/
theorem deadlineEndsExchange : Obligations.DeadlineEndsExchange := by
  rintro s st w t e ⟨rfl, hwid, hws, -, hq, hcl, hr⟩ hnow he
  have hexec : exec (.advance t) s = _ := execAdvance_forward hnow
  rw [hexec]
  refine ⟨fun hd => congrArg _ ?_, fun hd => congrArg _ ?_⟩
  · rw [State.settle, satisfy_nil (by simp [hws, hd])]
    refine (dispatch_completes (w := w.wid) (r := .timeout) (x := .err e) ?_ ?_ ?_).trans ?_
    · simp [hr, hws, hd]
    · exact hwid
    · exact react_timeout he
    · simp [State.complete, State.emit, State.failWaiters, hws, hr, hd]
  · have hkeep : State.failWaiters (fun x => decide (x.deadline ≤ t)) .timeout { s with now := t } = { s with now := t } := by
      simp [State.failWaiters, hws, hr, Nat.not_le.mpr hd]
    rw [hkeep]
    exact settle_short hws hq hr

end Sys2Proof.Machine
end

section
/-! PROOFS. The stream reader with standalone reads alone (spec/44_stream_reader.md R125, R127, R128), and R129: the cut of the
stream into chunks cannot be observed. -/

namespace Sys2Proof.Machine

/-! ### Standalone reads -/

/-- R125, R126: with no read of the decoder pending, the oldest waiters are served and every result goes out in order. -/
theorem settle_standalone {s : State} (hw : s.exWid = none) :
    ∃ served rest results, s.srWaiters = served ++ rest ∧
      s.settle = { s with
        srWaiters := rest
        srQ := s.srQ.drop (served.map Waiter.size).sum
        res := []
        out := s.out ++ (s.res ++ results).map fun x => .rdResp x.1 x.2 } ∧
      List.Forall₂ (fun w x => ∃ bs, x = (w.wid, RdResult.ok bs) ∧ bs.length = w.size) served results ∧
      deliveredBytes results ++ s.srQ.drop (served.map Waiter.size).sum = s.srQ ∧
      ∀ w tail, rest = w :: tail → (s.srQ.drop (served.map Waiter.size).sum).length < w.size := by
  obtain ⟨served, rest, results, hws, heq, -, hbytes, hall, hhead⟩ := satisfyFrom_spec s.srWaiters s
  refine ⟨served, rest, results, hws, ?_, hall, hbytes, hhead⟩
  rw [State.settle, State.satisfy, heq]
  exact dispatch_emits (s.res ++ results) hw rfl

/-- Settles O41: the push is the append and the service of the standalone reads. -/
theorem pushServesOldestFirst : Obligations.PushServesOldestFirst := by
  intro s chunk hcl hf hw hr
  obtain ⟨served, rest, results, hws, heq, hall, hbytes, hhead⟩ :=
    settle_standalone (s := { s with srQ := s.srQ ++ chunk }) hw
  refine ⟨served, rest, results, hws, ?_, hall, hbytes, hhead⟩
  refine (execPush_fits hcl hf).trans (congrArg _ (heq.trans ?_))
  simp [hr]

/-- Settles O43: a close fails all waiters at once, and each result goes out. -/
theorem closeFailsPendingReads : Obligations.CloseFailsPendingReads := by
  intro s reason
  refine ⟨fun hcl => if_pos hcl, fun hcl hw hr => ?_⟩
  refine (execClose_open reason hcl).trans (congrArg _ (Eq.trans (dispatch_emits _ hw rfl) ?_))
  simp [State.failWaiters, hr]

/-- Settles O44: the expired waiters' results stand before those of the waiters that are served after them. -/
theorem advanceExpiresThenServes : Obligations.AdvanceExpiresThenServes := by
  intro s t
  refine ⟨fun hlt => if_pos hlt, fun hle hw hr => ?_⟩
  obtain ⟨served, rest, results, hws, heq, hall, hbytes, hhead⟩ := settle_standalone
    (s := State.failWaiters (fun w => decide (w.deadline ≤ t)) .timeout { s with now := t }) hw
  refine ⟨served, rest, results, ?_, ?_, hall, hbytes, hhead⟩
  · refine Eq.trans (List.filter_congr fun w _ => ?_) hws
    rw [← decide_not, decide_eq_decide, Nat.not_le]
  · refine (execAdvance_forward hle).trans (congrArg _ (heq.trans ?_))
    simp [State.failWaiters, hr]

/-! ### A later chunk -/

/-- Bytes join the end of the queue. -/
def State.append (b : Bytes) (s : State) : State := { s with srQ := s.srQ ++ b }

theorem append_append (a b : Bytes) (s : State) : (s.append a).append b = s.append (a ++ b) := by
  simp [State.append]

/-- Serving a list of waiters does not read the pending ones. -/
theorem satisfyFrom_waiters (ws : List Waiter) (s : State) (pending : List Waiter) :
    satisfyFrom ws { s with srWaiters := pending } = satisfyFrom ws s := by
  induction ws generalizing s with
  | nil => rfl
  | cons w ws ih =>
    by_cases h : w.size ≤ s.srQ.length
    · rw [satisfyFrom, satisfyFrom, if_pos h, if_pos h]
      exact ih { s.deliver w.wid (.ok (s.srQ.take w.size)) with srQ := s.srQ.drop w.size }
    · rw [satisfyFrom, satisfyFrom, if_neg h, if_neg h]

/-- What the waiters are given does not depend on bytes that come later: those left are served as if the bytes had been there
at once. -/
theorem satisfy_append (b : Bytes) (ws : List Waiter) (s : State) :
    ((satisfyFrom ws s).append b).satisfy = satisfyFrom ws (s.append b) := by
  induction ws generalizing s with
  | nil => rfl
  | cons w ws ih =>
    by_cases h : w.size ≤ s.srQ.length
    · have h' : w.size ≤ (s.append b).srQ.length := h.trans (by simp [State.append])
      rw [satisfyFrom, if_pos h, ih, satisfyFrom, if_pos h']
      simp [State.append, State.deliver, List.take_append_of_le_length h, List.drop_append_of_le_length h]
    · rw [satisfyFrom, if_neg h]
      exact satisfyFrom_waiters (w :: ws) (s.append b) (w :: ws)

/-- Serving reads neither the results already delivered nor the outputs. -/
theorem satisfyFrom_ports (ws : List Waiter) (s : State) (pre : List (Nat × RdResult)) (os : List Output) :
    satisfyFrom ws { s with res := pre ++ s.res, out := os } =
      { satisfyFrom ws s with res := pre ++ (satisfyFrom ws s).res, out := os } := by
  induction ws generalizing s with
  | nil => rfl
  | cons w ws ih =>
    by_cases h : w.size ≤ s.srQ.length
    · rw [satisfyFrom, satisfyFrom, if_pos h, if_pos h, ← ih]
      simp [State.deliver]
    · rw [satisfyFrom, satisfyFrom, if_neg h, if_neg h]

theorem satisfy_exWid (s : State) : s.satisfy.exWid = s.exWid := by
  obtain ⟨_, _, _, -, heq, -⟩ := satisfyFrom_spec s.srWaiters s
  rw [State.satisfy, heq]

theorem satisfy_out (s : State) : s.satisfy.out = s.out := by
  obtain ⟨_, _, _, -, heq, -⟩ := satisfyFrom_spec s.srWaiters s
  rw [State.satisfy, heq]

/-- The results on the list go out on the read port. -/
def State.flush (s : State) : State := { s with res := [], out := s.out ++ s.res.map fun x => .rdResp x.1 x.2 }

theorem dispatch_eq_flush {s : State} (hw : s.exWid = none) : s.dispatch = s.flush := dispatch_emits s.res hw rfl

/-- Without the decoder, the results that are there may go out before further ones are delivered. -/
theorem settle_flush {s : State} (hw : s.exWid = none) : s.flush.settle = s.settle := by
  have hs : s.satisfy = { s.flush.satisfy with res := s.res ++ s.flush.satisfy.res, out := s.out } := by
    have := satisfyFrom_ports s.srWaiters s.flush s.res s.out
    rw [State.flush, List.append_nil] at this
    exact this
  have hw₁ : s.flush.satisfy.exWid = none := (satisfy_exWid s.flush).trans hw
  have hw₂ : s.satisfy.exWid = none := (satisfy_exWid s).trans hw
  rw [State.settle, State.settle, dispatch_eq_flush hw₁, dispatch_eq_flush hw₂, hs]
  simp [State.flush, satisfy_out]

/-- R129 for the reader alone: the results of the first bytes go out before the later ones are served. -/
theorem settle_append_standalone (b : Bytes) {s : State} (hw : s.exWid = none) :
    (s.settle.append b).settle = (s.append b).settle := by
  have hw' : s.satisfy.exWid = none := (satisfy_exWid s).trans hw
  have hlater : (s.append b).settle = (s.satisfy.append b).settle :=
    congrArg State.dispatch (satisfy_append b s.srWaiters s).symm
  have hnow : s.settle = s.satisfy.flush := dispatch_eq_flush hw'
  rw [hlater, hnow, ← settle_flush (s := s.satisfy.append b) hw']
  rfl

theorem receiving_cases {st : ExSt} (h : st.receiving = true) : st = .rxFirst ∨ st = .rxAccum ∨ st = .rxCksum := by
  cases st with
  | idle | tx => cases h
  | rxFirst => exact .inl rfl
  | rxAccum => exact .inr (.inl rfl)
  | rxCksum => exact .inr (.inr rfl)

/-- The decoder's rule for the bytes it waits for, if they are there, whatever follows them. -/
theorem State.Waits.served {s : State} {w : Waiter} (h : s.Waits w) (hrec : s.exSt.receiving = true)
    (hq : w.size ≤ s.srQ.length) :
    ∃ bs left, s.srQ = bs ++ left ∧ bs ≠ [] ∧
      ((∃ acc st, st.receiving = true ∧ ∀ rest, State.settle { s with srQ := bs ++ rest } =
          State.decodeOn { s with srQ := rest, exAcc := acc, exSt := st }) ∨
        ∃ x, ∀ rest, State.settle { s with srQ := bs ++ rest } =
          State.complete x { s with srWaiters := [], srQ := rest }) := by
  have hany (q : Bytes) : ({ s with srQ := q } : State).Waits w := ⟨h.waiters, h.wid, h.size, h.isOpen, h.settled⟩
  have hone {n : Nat} (hn : n + 1 ≤ s.srQ.length) : ∃ b left, s.srQ = b :: left :=
    List.exists_cons_of_ne_nil (List.length_pos_iff.mp (Nat.lt_of_lt_of_le (Nat.succ_pos n) hn))
  rw [h.size] at hq
  rcases receiving_cases hrec with hst | hst | hst
  · rw [hst] at hq
    obtain ⟨b, left, hb⟩ := hone hq
    refine ⟨[b], left, hb, by simp, ?_⟩
    by_cases hstart : b = s.cfg.pStart
    · subst hstart
      exact .inl ⟨[], .rxAccum, rfl, fun rest => (hany (s.cfg.pStart :: rest)).start hst rfl⟩
    · exact .inr ⟨firstByteResult s.cfg b, fun rest => (hany (b :: rest)).other hst hstart rfl⟩
  · rw [hst] at hq
    obtain ⟨b, left, hb⟩ := hone hq
    refine ⟨[b], left, hb, by simp, ?_⟩
    by_cases hend : b = s.cfg.pEnd
    · subst hend
      exact .inl ⟨s.exAcc, .rxCksum, rfl, fun rest => (hany (s.cfg.pEnd :: rest)).endMarker hst rfl⟩
    cases hf : s.accFull with
    | true => exact .inr ⟨_, fun rest => (hany (b :: rest)).overflow hst hend hf rfl⟩
    | false => exact .inl ⟨s.exAcc ++ [b], s.exSt, hrec, fun rest => (hany (b :: rest)).char hst hend hf rfl⟩
  · rw [hst] at hq
    obtain ⟨c1, left, hc1⟩ := hone hq
    obtain ⟨c2, left, rfl⟩ : ∃ c2 l, left = c2 :: l := by
      rw [hc1] at hq
      exact List.exists_cons_of_ne_nil (List.length_pos_iff.mp (Nat.le_of_succ_le_succ hq))
    refine ⟨[c1, c2], left, hc1, by simp, .inr ⟨responseVerdict s.cfg s.exAcc [c1, c2], fun rest => ?_⟩⟩
    exact (hany (c1 :: c2 :: rest)).checksum hst rfl

/-- R129 in the full block, by induction over the buffered bytes: each read takes its bytes from the front, so it does the
same with later bytes behind them. -/
theorem settle_append_waits (b : Bytes) {s : State} {w : Waiter} (h : s.Waits w) (hrec : s.exSt.receiving = true) :
    (s.settle.append b).settle = (s.append b).settle := by
  induction hn : s.srQ.length using Nat.strong_induction_on generalizing s w with
  | _ n ih =>
    by_cases hq : w.size ≤ s.srQ.length
    swap
    · rw [settle_short h.waiters (Nat.lt_of_not_le hq) h.settled]
    obtain ⟨bs, left, hbs, hne, hrule⟩ := h.served hrec hq
    have hself : s = { s with srQ := bs ++ left } := by rw [← hbs]
    have happ : s.append b = { s with srQ := bs ++ (left ++ b) } := by rw [State.append, hbs, List.append_assoc]
    rcases hrule with ⟨acc, st, hst, hrule⟩ | ⟨x, hrule⟩
    · have hshort : left.length < n := by
        rw [← hn, hbs, List.length_append]
        have := List.length_pos_iff.mpr hne
        omega
      rw [happ, hrule, hself, hrule]
      exact ih left.length hshort
        (waits_await (s := { s with srQ := left, exAcc := acc, exSt := st }) h.isOpen h.settled) hst rfl
    · rw [happ, hrule, hself, hrule]
      exact settle_none rfl h.settled

/-! ### Two pushes -/

theorem rx_queue_le (n : Nat) (s : State) : (s.rx n).srQ.length ≤ s.srQ.length := by
  rcases rx_cases n s with ⟨-, e⟩ | ⟨-, -, e⟩ | ⟨-, -, e⟩
  all_goals simp [e]

/-- Serving and dispatching only takes bytes off the queue. -/
theorem settle_queue_le (s : State) : s.settle.srQ.length ≤ s.srQ.length := by
  have hsat : s.satisfy.srQ.length ≤ s.srQ.length := by
    obtain ⟨_, _, _, -, heq, -⟩ := satisfyFrom_spec s.srWaiters s
    rw [State.satisfy, heq]
    simp
  refine dispatch_induct (P := fun t => t.srQ.length ≤ s.srQ.length) (fun t w r rest _ ht => ?_) _ hsat
  unfold State.dispatchEntry
  split
  · split
    · rename_i u hu
      obtain ⟨-, ⟨acc, st, -, -, -, -, -, rfl⟩ | ⟨x, rfl⟩⟩ := react_cases hu
      · exact (rx_queue_le _ _).trans ht
      · exact ht
    · exact ht
  · exact ht

/-- Settles O46: the second push appends to what the first has left, and serving before or between the two is the same. -/
theorem chunkingUnobservable : Obligations.ChunkingUnobservable := by
  intro s a b _ hi hblock hf
  cases hcl : s.srClosed with
  | true =>
    refine ⟨s, execPush_closed hcl a, ?_⟩
    exact (execPush_closed hcl b).trans (execPush_closed hcl (a ++ b)).symm
  | false =>
    have hfa : s.chunkFits a = true := withinBound_mono (by simp) hf
    have hk := kept_push s a
    have hlen := settle_queue_le (s.append a)
    have hfb : State.chunkFits b (s.append a).settle = true := by
      have hcfg : (s.append a).settle.cfg = s.cfg := hk.cfg
      rw [State.chunkFits, hcfg]
      refine withinBound_mono ?_ hf
      simp only [State.append, List.length_append] at hlen ⊢
      omega
    refine ⟨_, execPush_fits hcl hfa, ?_⟩
    refine (execPush_fits (hk.closed.trans hcl) hfb).trans (.trans (congrArg _ ?_) (execPush_fits hcl hf).symm)
    have hmerge : (s.append a).append b = s.append (a ++ b) := append_append a b s
    change ((s.append a).settle.append b).settle = (s.append (a ++ b)).settle
    rw [← hmerge]
    rcases hblock with hw | ⟨x, hx, hxw⟩
    · exact settle_append_standalone b (s := s.append a) hw
    · obtain ⟨hrec, y, hy, -, hsize⟩ := hi.readPending x.wid hxw
      rw [hx, List.mem_singleton] at hy
      subst hy
      exact settle_append_waits b (s := s.append a) ⟨hx, hxw, hsize, hcl, hi.settled⟩ hrec

end Sys2Proof.Machine
end
